-- ==== Sys2Proof/Word.lean ====
section
/-! DEFINITION. The word, byte and intensity types of the FBPC (00_scope.md R6, R7). -/

namespace Sys2Proof

/-- A 32-bit register or framebuffer address: `register width` and `framebuffer address width` of R6. -/
abbrev Word := BitVec 32

/-- One framebuffer byte, and one 8-bit intensity of a channel (R33). -/
abbrev Byte := BitVec 8

/-- One 16-bit palette intensity (R42). -/
abbrev Intensity := BitVec 16

end Sys2Proof
end

