-- ==== Sys2Proof/Syntax.lean ====
section
/-! DEFINITION. The commands of the opcode map (30_encoding.md R83), the registers' names (10_state.md R23) and the host
notation (30_encoding.md R86, R87). -/

namespace Sys2Proof

/-- The fifteen commands, in the order of the opcode map (R83). A command has no operand of its own: its operands are
fields of named registers (R82). -/
inductive Instr
  | encRep
  | encCol
  | encPal
  | extract
  | setpixRep
  | setpixCol
  | setpixPal
  | putraw
  | getpix
  | grabpix
  | cwrite
  | cread
  | palBuild
  | palWrite
  | palRead
deriving DecidableEq, Repr

/-- The named registers of the register map (R23). -/
inductive RegName
  | status
  | cmd
  | fbBase
  | fmt
  | visSize
  | virtSize
  | rfield
  | gfield
  | bfield
  | color
  | xy
  | rawIn
  | offset
  | resultRaw
  | resultRgb
  | markerRgb
  | palIdx
  | palRg
  | palB
deriving DecidableEq, Repr

/-- The three colour channels, each with a ChannelField register (R32). -/
inductive Channel
  | red
  | green
  | blue
deriving DecidableEq, Repr

/-- The two geometry registers that the notation's `SIZE` may name (R87). -/
inductive SizeReg
  | visible
  | virtual
deriving DecidableEq, Repr

/-- One line of a host program: the assembler lines of R86 (`WR`, `RD`, a mnemonic) and the pseudo-instructions of R87. -/
inductive HostLine
  | wr (r : RegName) (v : Word)
  | rd (r : RegName)
  | command (i : Instr)
  | poll
  | run (i : Instr)
  | setXY (x y : Nat)
  | setRGB (r g b : Nat)
  | setIdx (i : Nat)
  | field (c : Channel) (off len msb : Nat)
  | size (which : SizeReg) (w h : Nat)
  | format (bpp indexed : Nat)
  | check
deriving DecidableEq, Repr

end Sys2Proof
end

