-- ==== Sys2Proof/WellFormed.lean ====
section
/-! DEFINITION. What makes a command, a host access and a line of the host notation well formed. -/

namespace Sys2Proof

/-- Every command is well formed: it has no operand that could be out of range (R82, R85). -/
def Instr.wellFormed : Instr → Bool
  | .encRep => true
  | .encCol => true
  | .encPal => true
  | .extract => true
  | .setpixRep => true
  | .setpixCol => true
  | .setpixPal => true
  | .putraw => true
  | .getpix => true
  | .grabpix => true
  | .cwrite => true
  | .cread => true
  | .palBuild => true
  | .palWrite => true
  | .palRead => true

/-- The operand ranges of the pseudo-instructions (R87). -/
def HostLine.wellFormed : HostLine → Bool
  | .wr _ _ => true
  | .rd _ => true
  | .command i => i.wellFormed
  | .poll => true
  | .run i => i.wellFormed
  | .setXY x y => decide (x < 2 ^ 16) && decide (y < 2 ^ 16)
  | .setRGB r g b => decide (r < 256) && decide (g < 256) && decide (b < 256)
  | .setIdx i => decide (i < 256)
  | .field _ off len msb => decide (off < 32) && decide (len < 16) && decide (msb < 2)
  | .size _ w h => decide (w < 2 ^ 16) && decide (h < 2 ^ 16)
  | .format bpp indexed => decide (bpp < 64) && decide (indexed < 2)
  | .check => true

/-- The register accesses of the interface (R80): 32 bits wide, at an offset that is a multiple of 4 below 0x100. -/
def registerAccessInside (off size : Nat) : Bool :=
  decide (size = 4) && decide (off % 4 = 0) && decide (off < 0x100)

end Sys2Proof
end

