-- ==== Sys2Proof/Decode.lean ====
section
/-! DEFINITION. Decoding and encoding: the command word (30_encoding.md R81, R83 to R85) and the register map's offsets
(10_state.md R23). -/

namespace Sys2Proof

/-- Why a command word names no command (R84). -/
inductive DecodeError
  /-- `CMD[31:8]` is not 0. -/
  | reservedBitsSet
  /-- `CMD[7:0]` is not in the opcode map. -/
  | unknownOpcode (op : BitVec 8)
deriving DecidableEq, Repr

/-- The opcode byte `CMD[7:0]` (R28, R81). -/
def opcodeByte (w : Word) : BitVec 8 := w.extractLsb' 0 8

/-- The reserved field `CMD[31:8]` (R28, R81). -/
def reservedField (w : Word) : BitVec 24 := w.extractLsb' 8 24

/-- The opcode map of R83, read from the opcode byte. -/
def decodeOpcode (op : BitVec 8) : Option Instr :=
  match op.toNat with
  | 0x01 => some .encRep
  | 0x02 => some .encCol
  | 0x03 => some .encPal
  | 0x04 => some .extract
  | 0x10 => some .setpixRep
  | 0x11 => some .setpixCol
  | 0x12 => some .setpixPal
  | 0x13 => some .putraw
  | 0x14 => some .getpix
  | 0x15 => some .grabpix
  | 0x20 => some .cwrite
  | 0x21 => some .cread
  | 0x30 => some .palBuild
  | 0x31 => some .palWrite
  | 0x32 => some .palRead
  | _ => none

/-- Decoding of a command word: one of the fifteen words 0x000000OP, or illegal (R81, R84, R85). -/
def decode (w : Word) : Except DecodeError Instr :=
  if reservedField w = 0 then
    match decodeOpcode (opcodeByte w) with
    | some i => .ok i
    | none => .error (.unknownOpcode (opcodeByte w))
  else .error .reservedBitsSet

/-- The opcode of a command (R83). -/
def opcode : Instr → BitVec 8
  | .encRep => 0x01
  | .encCol => 0x02
  | .encPal => 0x03
  | .extract => 0x04
  | .setpixRep => 0x10
  | .setpixCol => 0x11
  | .setpixPal => 0x12
  | .putraw => 0x13
  | .getpix => 0x14
  | .grabpix => 0x15
  | .cwrite => 0x20
  | .cread => 0x21
  | .palBuild => 0x30
  | .palWrite => 0x31
  | .palRead => 0x32

/-- The command word of a command, 0x000000OP (R81, R86). -/
def encode (i : Instr) : Word := (opcode i).setWidth 32

/-- The word a table row's bits stand for: bits above `nbits` are 0. Every command is one 32-bit word (R85). -/
def tableWord (nbits w : Nat) : Word := BitVec.ofNat 32 (w % 2 ^ nbits)

/-- The command the decoder reads from the bits `w` of an opcode-table row. -/
def decodeTableWord (nbits w : Nat) : Option Instr :=
  match decode (tableWord nbits w) with
  | .ok i => some i
  | .error _ => none

/-- A register's offset from `REG_BASE` (R23). -/
def regOffset : RegName → Nat
  | .status => 0x00
  | .cmd => 0x04
  | .fbBase => 0x08
  | .fmt => 0x0C
  | .visSize => 0x10
  | .virtSize => 0x14
  | .rfield => 0x18
  | .gfield => 0x1C
  | .bfield => 0x20
  | .color => 0x24
  | .xy => 0x28
  | .rawIn => 0x2C
  | .offset => 0x30
  | .resultRaw => 0x34
  | .resultRgb => 0x38
  | .markerRgb => 0x3C
  | .palIdx => 0x40
  | .palRg => 0x44
  | .palB => 0x48

/-- The register at an offset; `none` at a reserved offset (R22, R23). -/
def regAt (off : Nat) : Option RegName :=
  match off with
  | 0x00 => some .status
  | 0x04 => some .cmd
  | 0x08 => some .fbBase
  | 0x0C => some .fmt
  | 0x10 => some .visSize
  | 0x14 => some .virtSize
  | 0x18 => some .rfield
  | 0x1C => some .gfield
  | 0x20 => some .bfield
  | 0x24 => some .color
  | 0x28 => some .xy
  | 0x2C => some .rawIn
  | 0x30 => some .offset
  | 0x34 => some .resultRaw
  | 0x38 => some .resultRgb
  | 0x3C => some .markerRgb
  | 0x40 => some .palIdx
  | 0x44 => some .palRg
  | 0x48 => some .palB
  | _ => none

end Sys2Proof
end

