-- ==== Sys2Proof/Config.lean ====
section
/-! DEFINITION. The implementation parameters (00_scope.md R6) and the free values: what the spec leaves open is an opaque
constant, so that no proof can see a value of it. -/

namespace Sys2Proof

/-- Bits [31:8] of `REG_BASE`, the OPEN platform parameter of R6; its low 8 bits are 0 because `REG_BASE` is aligned to
0x100. DESIGN CHOICE: the host's bus addresses have 32 bits; no rule gives `REG_BASE` a width. See log 10. -/
opaque Config.regBasePage : BitVec 24

/-- `REG_BASE` (R6, R22). -/
def Config.regBase : Word := Config.regBasePage ++ (0 : BitVec 8)

/-- `REG_SPAN`, the size of the register window in bytes (R6, R22). -/
def Config.regSpan : Nat := 0x100

/-- First index of the colour-ramp region (R6, R171). -/
def Config.colorRampBase : Nat := 100

/-- First index of the gray-ramp region (R6, R172). -/
def Config.grayRampBase : Nat := 200

/-- First index of the marker region (R6, R173). -/
def Config.markerBase : Nat := 210

/-- Number of entries of the palette RAM (R6, R42). -/
def Config.paletteSize : Nat := 256

/-- FREE VALUE. What a read of `RESULT_RAW`, `RESULT_RGB`, `PAL_RG` or `PAL_B` returns while BUSY = 1 (R237), by draw
number. Safe; log 6. -/
opaque Config.freeWord : Nat → Word

/-- FREE VALUE. An intensity of a palette entry that nothing has written since reset (R232), by draw number. Safe; log 5. -/
opaque Config.freeIntensity : Nat → Intensity

/-- FREE VALUE. The outcome of a race between a host access and one access of the running command (R76), by draw number.
Safe; log 7. -/
opaque Config.raceChoice : Nat → Bool

/-- FREE VALUE. How many of the host writes that raced with a read access of the running command come after it (R76), by draw
number. Safe; log 7. -/
opaque Config.raceVersion : Nat → Nat

end Sys2Proof
end

