-- ==== Sys2Proof/Machine/State.lean ====
section
/-! DEFINITION. The state of the FBPC (10_state.md), its two agents, and the reasons a step can stop. -/

namespace Sys2Proof.Machine

/-- The machine never stops with a fault: every fault of the FBPC (60_exceptions.md R200) is recorded in `STATUS` and is a
next state, and an access that the memory does not admit leaves the engine Busy (R61), which is a next state too. -/
inductive Fault
deriving DecidableEq, Repr

/-- Why a step has no meaning. All but `notModelled` are register accesses outside the interface, whose effect R80 leaves
unspecified and which "a model refuses". -/
inductive Refusal
  /-- Raised by `exec` for a command without a meaning: none is left. Safe. -/
  | notModelled (mnemonic : String)
  /-- Raised by a host register access that is not 32 bits wide (R80; log 11). Safe. -/
  | registerAccessNotWord (size : Nat)
  /-- Raised by a host register access at an offset that is not a multiple of 4 (R80; log 11). Safe. -/
  | registerAccessMisaligned (off : Nat)
  /-- Raised by a host register access at an offset of `REG_SPAN` or more, which is no access to this block (R22, R80;
  log 10). Safe. -/
  | registerAccessOutsideWindow (off : Nat)
deriving DecidableEq, Repr

/-- The fault codes 1 to 11 of R201. -/
inductive FaultCode
  | illegal
  | bpp
  | indexedBpp
  | palBpp
  | msbFirst
  | width
  | unimpl
  | mode
  | geom
  | bounds
  | align
deriving DecidableEq, Repr

/-- The operand and configuration registers: the fifteen RW registers of R20 and R23. A command's snapshot (R82) is a copy
of them. -/
structure OperandRegs where
  /-- R29 -/
  fbBase : Word
  /-- R30 -/
  fmt : Word
  /-- R31 -/
  visSize : Word
  /-- R31 -/
  virtSize : Word
  /-- R32 -/
  rfield : Word
  /-- R32 -/
  gfield : Word
  /-- R32 -/
  bfield : Word
  /-- R33 -/
  color : Word
  /-- R34 -/
  xy : Word
  /-- R35 -/
  rawIn : Word
  /-- R36 -/
  offset : Word
  /-- R39 -/
  markerRgb : Word
  /-- R40 -/
  palIdx : Word
  /-- R41 -/
  palRg : Word
  /-- R41 -/
  palB : Word
deriving DecidableEq, Repr

/-- The stored fields of `STATUS` (R24). `BUSY` is the engine state (R43) and has no second home. -/
structure Status where
  /-- `STATUS.ERR` (R26) -/
  err : Bool
  /-- `STATUS.OVR` (R27) -/
  ovr : Bool
  /-- `STATUS.ERRCODE` (R26) -/
  errcode : BitVec 4
  /-- `STATUS.ERROP` (R26) -/
  errop : BitVec 8
deriving DecidableEq, Repr

/-- A palette entry: a triple of 16-bit intensities (R42). -/
structure PalEntry where
  red : Intensity
  green : Intensity
  blue : Intensity
deriving DecidableEq, Repr

/-- The access sizes of the framebuffer port: 1, 2 or 4 bytes (R60). -/
inductive Width
  | b1
  | b2
  | b4
deriving DecidableEq, Repr

/-- Read or write access of the framebuffer port (R60). -/
inductive AccessKind
  | read
  | write
deriving DecidableEq, Repr

/-- A class of accesses that the memory does not admit (R61): those of one kind and width whose address lies in a range. -/
structure Denial where
  kind : AccessKind
  width : Width
  first : Nat
  last : Nat
deriving DecidableEq, Repr

/-- A command in flight (R43): the command word and the snapshot of its operand registers. The last three fields are the
model's own account of how far the command has come (log 2, log 7). -/
structure Flight where
  /-- The command word (R43, R81). -/
  cmd : Word
  /-- The snapshot of the operand and configuration registers (R82). -/
  ops : OperandRegs
  /-- How many of the command's accesses have completed (R74). -/
  issued : Nat
  /-- The container bytes read so far, assembled little-endian (R65). -/
  data : Word
  /-- The bytes that an access replaced during the command, a list for each such access, the latest access first (R76; log 7). -/
  old : List (List Host.Cell)
deriving DecidableEq, Repr

/-- The engine state (R43). -/
inductive Engine
  | idle
  | busy (f : Flight)
deriving DecidableEq, Repr

/-- What the environment does next (log 1): an access of the host (R5, R80), reset (R230), or a turn of the engine. -/
inductive Event
  /-- A host register write of `size` bytes at byte offset `off` from `REG_BASE` (R80). -/
  | regWrite (off size : Nat) (v : Word)
  /-- A host register read of `size` bytes at byte offset `off` from `REG_BASE` (R80). -/
  | regRead (off size : Nat)
  /-- A host write to the framebuffer memory (R5, R76). -/
  | fbWrite (addr : Word) (w : Width) (v : Word)
  /-- A host read of the framebuffer memory (R5, R76). -/
  | fbRead (addr : Word) (w : Width)
  /-- The reset input (R230). -/
  | reset
  /-- The engine performs its next single access, or ends its command (R74; log 2). -/
  | engine
  /-- `POLL`: the host reads `STATUS` until BUSY reads 0 (R87). -/
  | poll
deriving DecidableEq, Repr

/-- The framebuffer memory: the bytes that differ from what an unlisted byte reads as (log 3), addresses strictly rising. -/
abbrev Memory := List Host.Cell

/-- The palette RAM: the entries written since the last reset, indices strictly rising; any other entry is unspecified
(R42, R232; log 5). -/
abbrev Palette := List (Nat × PalEntry)

/-- The whole state: the block's registers, stores and engine (10_state.md), the memory oracle `Mem` (R61), and the model's
own `agenda`, `hostData` and `draws`. -/
structure State where
  /-- The RW registers (R20, R23). -/
  rw : OperandRegs
  /-- `RESULT_RAW` (R37) -/
  resultRaw : Word
  /-- `RESULT_RGB` (R38) -/
  resultRgb : Word
  /-- `STATUS` but for BUSY (R24) -/
  status : Status
  /-- The engine state (R43); `STATUS.BUSY` is 1 exactly when it is `busy` -/
  engine : Engine
  /-- The palette RAM (R42) -/
  pal : Palette
  /-- `Mem`: the framebuffer's contents (R61) -/
  mem : Memory
  /-- `Mem`: the accesses that it does not admit (R61; log 4) -/
  denied : List Denial
  /-- The MODEL's own: what happens next, first event first (log 1) -/
  agenda : List Event
  /-- The MODEL's own: the value that the last host read returned (log 9) -/
  hostData : Word
  /-- The MODEL's own: the number of free values drawn so far (log 8) -/
  draws : Nat
deriving DecidableEq, Repr

/-- The reset values of the RW registers: all 0 (R230, R231). -/
def OperandRegs.reset : OperandRegs where
  fbBase := 0
  fmt := 0
  visSize := 0
  virtSize := 0
  rfield := 0
  gfield := 0
  bfield := 0
  color := 0
  xy := 0
  rawIn := 0
  offset := 0
  markerRgb := 0
  palIdx := 0
  palRg := 0
  palB := 0

/-- The reset value of `STATUS`: 0 (R230, R231). -/
def Status.reset : Status where
  err := false
  ovr := false
  errcode := 0
  errop := 0

/-- The machine right after reset (R230, R231): every register 0, the engine Idle, no palette entry written (R232). The
memory lists nothing (log 3) and admits every access (log 4); the model's own fields are empty or 0 (log 1, 8, 9). -/
def State.reset : State where
  rw := OperandRegs.reset
  resultRaw := 0
  resultRgb := 0
  status := Status.reset
  engine := .idle
  pal := []
  mem := []
  denied := []
  agenda := []
  hostData := 0
  draws := 0

end Sys2Proof.Machine
end

