-- ==== Sys2Proof/Machine/Flags.lean ====
section
/-! DEFINITION. The flags: `STATUS` and its fields (10_state.md R24 to R27, R44), and the fault codes (60_exceptions.md R201). -/

namespace Sys2Proof.Machine

/-- The code of a fault, as `STATUS.ERRCODE` holds it (R201). -/
def FaultCode.number : FaultCode → BitVec 4
  | .illegal => 1
  | .bpp => 2
  | .indexedBpp => 3
  | .palBpp => 4
  | .msbFirst => 5
  | .width => 6
  | .unimpl => 7
  | .mode => 8
  | .geom => 9
  | .bounds => 10
  | .align => 11

/-- `STATUS.BUSY`: 1 exactly when the engine state is Busy (R25, R43). -/
def State.busy (s : State) : Bool :=
  match s.engine with
  | .idle => false
  | .busy _ => true

/-- The 32-bit value of `STATUS`: BUSY `[0]`, ERR `[1]`, OVR `[2]`, ERRCODE `[7:4]`, ERROP `[15:8]`, the rest 0 (R24). -/
def State.statusWord (s : State) : Word :=
  (0 : BitVec 16) ++ s.status.errop ++ s.status.errcode ++ (0 : BitVec 1) ++
    BitVec.ofBool s.status.ovr ++ BitVec.ofBool s.status.err ++ BitVec.ofBool s.busy

/-- `OVR <- 1`: a register write was dropped because BUSY was 1 (R27). -/
def State.setOvr (s : State) : State := { s with status := { s.status with ovr := true } }

/-- A write of `v` to `STATUS`: bit 2 set clears OVR, every other bit is ignored (R24, R27). -/
def State.writeStatus (s : State) (v : Word) : State :=
  if v.getLsbD 2 then { s with status := { s.status with ovr := false } } else s

end Sys2Proof.Machine
end

