-- ==== Sys2Proof/Machine/Plan.lean ====
section
/-! DEFINITION. The types a command's meaning is written with: its accesses in pseudocode order, and what its end writes. -/

namespace Sys2Proof.Machine

/-- A ChannelField: offset, length and bit-order flag (R10, R32). -/
structure ChannelField where
  off : BitVec 5
  len : BitVec 4
  msb : Bool
deriving DecidableEq, Repr

/-- The four container widths (R63). -/
inductive Container
  | c8
  | c16
  | c24
  | c32
deriving DecidableEq, Repr

/-- One access of a running command: a read or write on the framebuffer port (R9, R60), or the write of one palette entry
(R9, R170). -/
inductive Access
  | memRead (addr : Word) (w : Width)
  | memWrite (addr : Word) (w : Width) (v : Word)
  | palWrite (idx : BitVec 8) (e : PalEntry)
deriving DecidableEq, Repr

/-- What the end of a command writes, together with the fall of BUSY (R25, R82): result registers, or nothing. -/
inductive Result
  /-- No result register. -/
  | nothing
  /-- `RESULT_RAW <- v` -/
  | raw (v : Word)
  /-- `RESULT_RGB <- v` -/
  | rgb (v : Word)
  /-- `RESULT_RAW <-` the container that was read -/
  | container
  /-- `RESULT_RAW <-` the container that was read, `RESULT_RGB <-` its three channels normalized (R138) -/
  | capture (r g b : ChannelField)
  /-- `PAL_RG`, `PAL_B <-` a palette entry (R178) -/
  | palEntry (idx : BitVec 8)
deriving DecidableEq, Repr

/-- What a command does once its checks have passed: its accesses in pseudocode order (R74), then its result. -/
structure Plan where
  accesses : List Access
  result : Result
deriving DecidableEq, Repr

end Sys2Proof.Machine
end

