-- ==== Sys2Proof/Machine/Operands.lean ====
section
/-! DEFINITION. Every operand form: the fields of the operand and configuration registers (30_encoding.md R82) and the values
derived from them (10_state.md R31, R63, R68 to R70). -/

namespace Sys2Proof.Machine

/-- `COLOR.R` (R33). -/
def OperandRegs.colorR (o : OperandRegs) : Byte := o.color.extractLsb' 16 8

/-- `COLOR.G` (R33). -/
def OperandRegs.colorG (o : OperandRegs) : Byte := o.color.extractLsb' 8 8

/-- `COLOR.B` (R33). -/
def OperandRegs.colorB (o : OperandRegs) : Byte := o.color.extractLsb' 0 8

/-- `COLOR.IDX`, the palette index of ENC_PAL and SETPIX_PAL (R33). -/
def OperandRegs.colorIdx (o : OperandRegs) : Byte := o.color.extractLsb' 0 8

/-- `X` (R34). -/
def OperandRegs.x (o : OperandRegs) : Nat := (o.xy.extractLsb' 0 16).toNat

/-- `Y` (R34). -/
def OperandRegs.y (o : OperandRegs) : Nat := (o.xy.extractLsb' 16 16).toNat

/-- `FMT.BPP` (R30). -/
def OperandRegs.bpp (o : OperandRegs) : BitVec 6 := o.fmt.extractLsb' 0 6

/-- `FMT.INDEXED` (R30). -/
def OperandRegs.indexed (o : OperandRegs) : Bool := o.fmt.getLsbD 8

/-- `VIS_W` (R31). -/
def OperandRegs.visW (o : OperandRegs) : Nat := (o.visSize.extractLsb' 0 16).toNat

/-- `VIS_H` (R31). -/
def OperandRegs.visH (o : OperandRegs) : Nat := (o.visSize.extractLsb' 16 16).toNat

/-- `VIRT_W` (R31). -/
def OperandRegs.virtW (o : OperandRegs) : Nat := (o.virtSize.extractLsb' 0 16).toNat

/-- `VIRT_H` (R31). -/
def OperandRegs.virtH (o : OperandRegs) : Nat := (o.virtSize.extractLsb' 16 16).toNat

/-- The ChannelField layout `[4:0]` OFF, `[11:8]` LEN, `[16]` MSB (R32). -/
def channelField (w : Word) : ChannelField where
  off := w.extractLsb' 0 5
  len := w.extractLsb' 8 4
  msb := w.getLsbD 16

/-- `RFIELD` (R32). -/
def OperandRegs.redField (o : OperandRegs) : ChannelField := channelField o.rfield

/-- `GFIELD` (R32). -/
def OperandRegs.greenField (o : OperandRegs) : ChannelField := channelField o.gfield

/-- `BFIELD` (R32). -/
def OperandRegs.blueField (o : OperandRegs) : ChannelField := channelField o.bfield

/-- `PAL_IDX[7:0]` (R40). -/
def OperandRegs.paletteIndex (o : OperandRegs) : BitVec 8 := o.palIdx.extractLsb' 0 8

/-- The triple `(PAL_RG[15:0], PAL_RG[31:16], PAL_B[15:0])` (R41). -/
def OperandRegs.paletteEntry (o : OperandRegs) : PalEntry where
  red := o.palRg.extractLsb' 0 16
  green := o.palRg.extractLsb' 16 16
  blue := o.palB.extractLsb' 0 16

/-- The colour byte in the high byte of a 16-bit intensity, `v << 8` (R173). -/
def highByte (v : Byte) : Intensity := v ++ (0 : BitVec 8)

/-- `MARKER_RGB[23:0]` as a palette entry (R39, R173). -/
def OperandRegs.markerEntry (o : OperandRegs) : PalEntry where
  red := highByte (o.markerRgb.extractLsb' 16 8)
  green := highByte (o.markerRgb.extractLsb' 8 8)
  blue := highByte (o.markerRgb.extractLsb' 0 8)

/-- The container width that `FMT.BPP` names, if it is one of 8, 16, 24, 32 (R63). -/
def containerOf (bpp : BitVec 6) : Option Container :=
  match bpp.toNat with
  | 8 => some .c8
  | 16 => some .c16
  | 24 => some .c24
  | 32 => some .c32
  | _ => none

/-- `nbytes = FMT.BPP / 8` (R10, R31). -/
def Container.nbytes : Container → Nat
  | .c8 => 1
  | .c16 => 2
  | .c24 => 3
  | .c32 => 4

/-- `stride = VIRT_W * nbytes`, exact (R31). -/
def OperandRegs.stride (o : OperandRegs) (c : Container) : Nat := o.virtW * c.nbytes

/-- `surface_size = stride * VIRT_H`, exact (R31). -/
def OperandRegs.surfaceSize (o : OperandRegs) (c : Container) : Nat := o.stride c * o.virtH

/-- `pix_offset(X, Y) = Y * stride + X * nbytes`, exact (R68). -/
def OperandRegs.pixOffset (o : OperandRegs) (c : Container) : Nat := o.y * o.stride c + o.x * c.nbytes

/-- The address `trunc_32(FB_BASE + off)` of a byte offset from `FB_BASE` (R68 to R70). -/
def OperandRegs.surfaceAddr (o : OperandRegs) (off : Nat) : Word := BitVec.ofNat 32 (o.fbBase.toNat + off)

/-- Whether an address meets a container's alignment requirement, judged on the wrapped address (R67, R70). -/
def Container.aligned (c : Container) (addr : Word) : Bool :=
  match c with
  | .c8 => true
  | .c16 => addr.toNat % 2 == 0
  | .c24 => true
  | .c32 => addr.toNat % 4 == 0

end Sys2Proof.Machine
end

