-- ==== Sys2Proof/Machine/Ops.lean ====
section
/-! DEFINITION. The named operations over the memory, the palette RAM and the registers; fault entry (60_exceptions.md R204)
and reset (70_reset_and_hazards.md R230). -/

namespace Sys2Proof.Machine

/-- The value listed under a key. -/
def findKey {α : Type} (k : Nat) : List (Nat × α) → Option α
  | [] => none
  | (k', v) :: t => if k = k' then some v else findKey k t

/-- List a value under a key, keeping the keys rising. -/
def insertKey {α : Type} (k : Nat) (v : α) : List (Nat × α) → List (Nat × α)
  | [] => [(k, v)]
  | (k', v') :: t =>
    if k < k' then (k, v) :: (k', v') :: t
    else if k = k' then (k, v) :: t
    else (k', v') :: insertKey k v t

/-- Remove the entry of a key. -/
def eraseKey {α : Type} (k : Nat) : List (Nat × α) → List (Nat × α)
  | [] => []
  | (k', v') :: t => if k = k' then t else (k', v') :: eraseKey k t

/-- The keys are strictly rising. -/
def keysRise {α : Type} : List (Nat × α) → Bool
  | [] => true
  | (k, _) :: t => t.all (fun e => decide (k < e.1)) && keysRise t

/-- What an unlisted framebuffer byte reads as. DESIGN CHOICE, unsafe: log 3. -/
def unlistedByte : Byte := 0

/-- The canonical form of the memory: addresses strictly rising and below 2^32, and no entry equal to what an unlisted
address reads as. -/
def Memory.wf (m : Memory) : Bool :=
  keysRise m && m.all (fun c => decide (c.1 < 2 ^ 32) && decide (c.2 ≠ unlistedByte))

/-- The canonical form of the palette RAM: indices strictly rising and below 256 (R42). -/
def Palette.wf (p : Palette) : Bool :=
  keysRise p && p.all (fun e => decide (e.1 < Config.paletteSize))

/-- The byte at an address (R60, R61). -/
def readByte (m : Memory) (a : Word) : Byte := (findKey a.toNat m).getD unlistedByte

/-- Write the byte at an address (R60, R61). -/
def writeByte (m : Memory) (a : Word) (v : Byte) : Memory :=
  if v = unlistedByte then eraseKey a.toNat m else insertKey a.toNat v m

/-- The number of bytes of an access (R60). -/
def Width.bytes : Width → Nat
  | .b1 => 1
  | .b2 => 2
  | .b4 => 4

/-- `n` bytes assembled little-endian by a reader of one byte: the byte at `a` is bits [7:0]; addresses wrap modulo 2^32
(R62, R70). -/
def assembleLE (byteAt : Word → Byte) (a : Word) : Nat → Word
  | 0 => 0
  | n + 1 => (byteAt a).setWidth 32 ||| (assembleLE byteAt (a + 1) n <<< 8)

/-- `MemRead(a, n)` on memory contents (R9, R62). -/
def readBytes (m : Memory) (a : Word) (n : Nat) : Word := assembleLE (readByte m) a n

/-- `MemWrite(a, n, v)` on memory contents (R9, R62). -/
def writeBytes (m : Memory) (a : Word) (n : Nat) (v : Word) : Memory :=
  match n with
  | 0 => m
  | n + 1 => writeBytes (writeByte m a (v.extractLsb' 0 8)) (a + 1) n (v >>> 8)

/-- The `n` bytes from address `a`, as cells (log 7). -/
def cellsAt (m : Memory) (a : Word) : Nat → List Host.Cell
  | 0 => []
  | n + 1 => (a.toNat, readByte m a) :: cellsAt m (a + 1) n

/-- Whether the `n` bytes from `base` (wrapping) include address `x`. -/
def covers (base : Word) (n : Nat) (x : Word) : Bool := decide ((x - base).toNat < n)

/-- Whether one class of accesses includes an access. -/
def Denial.matches (d : Denial) (kind : AccessKind) (w : Width) (a : Word) : Bool :=
  decide (d.kind = kind) && decide (d.width = w) && decide (d.first ≤ a.toNat) && decide (a.toNat ≤ d.last)

/-- Whether `Mem` admits an access of the FBPC's port (R61; log 4). -/
def State.admits (s : State) (kind : AccessKind) (w : Width) (a : Word) : Bool :=
  !s.denied.any (fun d => d.matches kind w a)

/-- `PAL[i] <- e` (R9). -/
def writePalette (p : Palette) (i : BitVec 8) (e : PalEntry) : Palette := insertKey i.toNat e p

/-- A palette entry that nothing has written since reset: any triple (R232; log 5). -/
def freeEntry (draw : Nat) : PalEntry where
  red := Config.freeIntensity draw
  green := Config.freeIntensity (draw + 1)
  blue := Config.freeIntensity (draw + 2)

/-- `PAL[i]` (R9), and how many free values reading it draws. -/
def readPalette (p : Palette) (draws : Nat) (i : BitVec 8) : PalEntry × Nat :=
  match findKey i.toNat p with
  | some e => (e, 0)
  | none => (freeEntry draws, 3)

/-- The fault entry `Fault(code)` (R204): ERR, ERRCODE and ERROP record the fault, BUSY falls, the command ends. -/
def State.raiseFault (s : State) (code : FaultCode) (op : BitVec 8) : State :=
  { s with
    status := { s.status with err := true, errcode := code.number, errop := op }
    engine := .idle }

/-- Reset (R230): every register to its reset value, the engine Idle and any command in flight abandoned (R234), every palette
entry unspecified (R232). The framebuffer is not accessed (R233); the environment's own fields stay (log 14). Reset is the only
return from a fault (R207). -/
def State.resetBlock (s : State) : State :=
  { s with
    rw := OperandRegs.reset
    resultRaw := 0
    resultRgb := 0
    status := Status.reset
    engine := .idle
    pal := [] }

/-- A command at its start (R81, R82): the command word, and the snapshot of the operand registers. -/
def Flight.start (cmd : Word) (rw : OperandRegs) : Flight where
  cmd := cmd
  ops := rw
  issued := 0
  data := 0
  old := []

end Sys2Proof.Machine
end

