-- ==== Sys2Proof/Machine/Engine.lean ====
section
/-! DEFINITION. The engine: the container access lists (20_memory.md), one access of a command, the end of a command, and a
whole command (10_state.md R25, 30_encoding.md R81). -/

namespace Sys2Proof.Machine

/-- `raise Fault(code)` where a condition holds (R9). -/
def failIf (c : Prop) [Decidable c] (code : FaultCode) : Except FaultCode Unit :=
  if c then .error code else .ok ()

/-- `ContainerWrite(addr, raw)`: the accesses it performs, in order (R64, R66). -/
def containerWrite (c : Container) (addr raw : Word) : List Access :=
  match c with
  | .c8 => [.memWrite addr .b1 ((raw.extractLsb' 0 8).setWidth 32)]
  | .c16 => [.memWrite addr .b2 ((raw.extractLsb' 0 16).setWidth 32)]
  | .c24 =>
    [ .memWrite addr .b1 ((raw.extractLsb' 0 8).setWidth 32)
    , .memWrite (addr + 1) .b1 ((raw.extractLsb' 8 8).setWidth 32)
    , .memWrite (addr + 2) .b1 ((raw.extractLsb' 16 8).setWidth 32) ]
  | .c32 => [.memWrite addr .b4 raw]

/-- `ContainerRead(addr)`: the accesses it performs, in order (R65, R66). -/
def containerRead (c : Container) (addr : Word) : List Access :=
  match c with
  | .c8 => [.memRead addr .b1]
  | .c16 => [.memRead addr .b2]
  | .c24 => [.memRead addr .b1, .memRead (addr + 1) .b1, .memRead (addr + 2) .b1]
  | .c32 => [.memRead addr .b4]

/-- `extract(raw, f)` (R103): right-shift by the offset, mask to LEN bits. -/
def extractField (raw : Word) (f : ChannelField) : Nat :=
  (raw.toNat >>> f.off.toNat) &&& (2 ^ f.len.toNat - 1)

/-- `normalize(raw, f)` (R104): `extract(raw, f) << (8 - LEN)`, an 8-bit value; used only after the checks of R105. -/
def normalizeChannel (raw : Word) (f : ChannelField) : Byte :=
  BitVec.ofNat 8 (extractField raw f <<< (8 - f.len.toNat))

/-- The three intensities packed as `RESULT_RGB` holds them: red `[23:16]`, green `[15:8]`, blue `[7:0]` (R38, R109). -/
def packRgb (r g b : Byte) : Word := (0 : BitVec 8) ++ r ++ g ++ b

/-- A byte as it was before the latest `n` accesses that the flight remembers (log 7). -/
def Flight.earlierByte (f : Flight) (m : Memory) (n : Nat) (a : Word) : Byte :=
  (findKey a.toNat (f.old.take n).reverse.flatten).getD (readByte m a)

/-- Whether one of the `n` bytes from `a` was written by the host during the command: a race (R76; log 7). -/
def Flight.raced (f : Flight) (a : Word) (n : Nat) : Bool :=
  f.old.any (fun g => g.any (fun c => covers a n (BitVec.ofNat 32 c.1)))

/-- One access of the running command, when the memory admits it; `none` when it does not (R61). A write access remembers the
bytes it replaces, and a read access that raced with host writes returns the bytes as they are or as they were before some of
those writes (R72, R76; log 7). -/
def performAccess (a : Access) (f : Flight) (s : State) : Option (Flight × State) :=
  match a with
  | .memWrite addr w v =>
    if s.admits .write w addr then
      some ({ f with issued := f.issued + 1, old := cellsAt s.mem addr w.bytes :: f.old },
        { s with mem := writeBytes s.mem addr w.bytes v })
    else none
  | .memRead addr w =>
    if s.admits .read w addr then
      let raced := f.raced addr w.bytes
      let value :=
        if raced then assembleLE (f.earlierByte s.mem (Config.raceVersion s.draws)) addr w.bytes
        else readBytes s.mem addr w.bytes
      some ({ f with issued := f.issued + 1, data := f.data ||| (value <<< (8 * f.issued)) },
        { s with draws := if raced then s.draws + 1 else s.draws })
    else none
  | .palWrite idx e =>
    some ({ f with issued := f.issued + 1 }, { s with pal := writePalette s.pal idx e })

/-- Accesses one after the other, each completing before the next is issued (R74), up to the first that the memory does not
admit. The last component says whether all of them completed. -/
def runAccesses : List Access → Flight → State → Flight × State × Bool
  | [], f, s => (f, s, true)
  | a :: rest, f, s =>
    match performAccess a f s with
    | none => (f, s, false)
    | some (f', s') => runAccesses rest f' s'

/-- What the end of a command writes, given the container it read (R37, R38, R41, R82). -/
def State.applyResult (s : State) (r : Result) (data : Word) : State :=
  match r with
  | .nothing => s
  | .raw v => { s with resultRaw := v }
  | .rgb v => { s with resultRgb := v }
  | .container => { s with resultRaw := data }
  | .capture fr fg fb =>
    { s with
      resultRaw := data
      resultRgb := packRgb (normalizeChannel data fr) (normalizeChannel data fg) (normalizeChannel data fb) }
  | .palEntry idx =>
    let e := (readPalette s.pal s.draws idx).1
    { s with
      rw := { s.rw with palRg := e.green ++ e.red, palB := (0 : BitVec 16) ++ e.blue }
      draws := s.draws + (readPalette s.pal s.draws idx).2 }

/-- The end of a command: its result, and BUSY <- 0 (R25, R81). -/
def State.complete (s : State) (r : Result) (data : Word) : State :=
  { s.applyResult r data with engine := .idle }

/-- The flight a command runs in: the one that is Busy, or from Idle the command's own start (R43, R81, R82). -/
def State.flightOf (s : State) (i : Instr) : Flight :=
  match s.engine with
  | .idle => Flight.start (encode i) s.rw
  | .busy f => f

/-- A whole command, from where its flight stands to its end (R81; log 2): its checks, then its remaining accesses, then its
result and the fall of BUSY. A check that fails takes the fault entry (R204). An access that the memory does not admit leaves
the engine Busy (R61). -/
def runCommand (i : Instr) (plan : OperandRegs → Except FaultCode Plan) (s : State) : State :=
  let f := s.flightOf i
  match plan f.ops with
  | .error code => s.raiseFault code (opcodeByte f.cmd)
  | .ok p =>
    match runAccesses (p.accesses.drop f.issued) f s with
    | (f', s', true) => s'.complete p.result f'.data
    | (f', s', false) => { s' with engine := .busy f' }

end Sys2Proof.Machine
end

