-- ==== Sys2Proof/Machine/Palette.lean ====
section
/-! DEFINITION. The palette commands (42_palette.md). -/

namespace Sys2Proof.Machine

/-- `R = RFIELD.LEN` (42_palette.md). -/
def OperandRegs.redLen (o : OperandRegs) : Nat := o.redField.len.toNat

/-- `G = GFIELD.LEN` (42_palette.md). -/
def OperandRegs.greenLen (o : OperandRegs) : Nat := o.greenField.len.toNat

/-- `B = BFIELD.LEN` (42_palette.md). -/
def OperandRegs.blueLen (o : OperandRegs) : Nat := o.blueField.len.toNat

/-- The one-bit intensity `1 << n` (R171, R172). -/
def rampValue (n : Nat) : Intensity := BitVec.ofNat 16 (1 <<< n)

/-- The saturated intensity 0xFFFF of a marker (R171). -/
def fullIntensity : Intensity := 0xFFFF

/-- `cramp(k)`, entry `k` of the colour-ramp region (R171). -/
def colorRamp (r g b k : Nat) : PalEntry :=
  if k = 0 then ⟨0, 0, 0⟩
  else if k < r then ⟨rampValue (k + 15 - r), 0, 0⟩
  else if k = r then ⟨fullIntensity, 0, 0⟩
  else if k < r + 1 + g then ⟨0, rampValue (k - (r + 1) + 15 - g), 0⟩
  else if k = r + 1 + g then ⟨0, fullIntensity, 0⟩
  else if k < r + g + 2 + b then ⟨0, 0, rampValue (k - (r + g + 2) + 15 - b)⟩
  else ⟨0, 0, fullIntensity⟩

/-- `cramp_len = R + G + B + 3` (R171). -/
def colorRampLen (r g b : Nat) : Nat := r + g + b + 3

/-- `n = min(R, G, B) + 1`, the length of the gray-ramp region (R172). -/
def grayRampLen (r g b : Nat) : Nat := min r (min g b) + 1

/-- `gray(i)`, entry `i` of a gray-ramp region of `n` entries (R172). -/
def grayRamp (n i : Nat) : PalEntry :=
  if i < n - 1 then ⟨rampValue (i + (16 - n)), rampValue (i + (16 - n)), rampValue (i + (16 - n))⟩
  else ⟨fullIntensity, fullIntensity, fullIntensity⟩

/-- The marker region: white, black, the caller's colour (R173). -/
def markers (o : OperandRegs) : List PalEntry :=
  [⟨fullIntensity, fullIntensity, fullIntensity⟩, ⟨0, 0, 0⟩, o.markerEntry]

/-- `install(start, e)`: one palette write for each entry, in increasing index (R170). -/
def install (start : Nat) : List PalEntry → List Access
  | [] => []
  | e :: es => .palWrite (BitVec.ofNat 8 start) e :: install (start + 1) es

/-- The three installs of PAL_BUILD, in their order (R174). -/
def buildAccesses (o : OperandRegs) : List Access :=
  install Config.colorRampBase
      ((List.range (colorRampLen o.redLen o.greenLen o.blueLen)).map (colorRamp o.redLen o.greenLen o.blueLen)) ++
    install Config.grayRampBase
      ((List.range (grayRampLen o.redLen o.greenLen o.blueLen)).map
        (grayRamp (grayRampLen o.redLen o.greenLen o.blueLen))) ++
    install Config.markerBase (markers o)

/-- PAL_BUILD (R174). -/
def planPalBuild (o : OperandRegs) : Except FaultCode Plan :=
  .ok { accesses := buildAccesses o, result := .nothing }

/-- PAL_WRITE (R177). -/
def planPalWrite (o : OperandRegs) : Except FaultCode Plan :=
  .ok { accesses := [.palWrite o.paletteIndex o.paletteEntry], result := .nothing }

/-- PAL_READ (R178). -/
def planPalRead (o : OperandRegs) : Except FaultCode Plan :=
  .ok { accesses := [], result := .palEntry o.paletteIndex }

/-- PAL_BUILD (R174). -/
def execPalBuild (s : State) : Host.Outcome State Fault Refusal := .next (runCommand .palBuild planPalBuild s)

/-- PAL_WRITE (R177). -/
def execPalWrite (s : State) : Host.Outcome State Fault Refusal := .next (runCommand .palWrite planPalWrite s)

/-- PAL_READ (R178). -/
def execPalRead (s : State) : Host.Outcome State Fault Refusal := .next (runCommand .palRead planPalRead s)

end Sys2Proof.Machine
end

