-- ==== Sys2Proof/Machine/Codec.lean ====
section
/-! DEFINITION. The pure codec commands (40_codec.md), and the format check that ENC_PAL shares with the surface commands. -/

namespace Sys2Proof.Machine

/-- `mask(L)` is `2^L - 1` (R8). -/
def mask (len : Nat) : Nat := 2 ^ len - 1

/-- `chan_rep(v, f)`, the replication policy (R101). -/
def chanRep (v : Byte) (f : ChannelField) : Word :=
  if v.toNat = 0 then 0
  else if v.toNat ≤ f.len.toNat then BitVec.ofNat 32 ((1 <<< (v.toNat - 1)) <<< f.off.toNat)
  else BitVec.ofNat 32 (mask f.len.toNat <<< f.off.toNat)

/-- `chan_col(v, f)`, the clamped scaling policy (R102). -/
def chanCol (v : Byte) (f : ChannelField) : Word :=
  BitVec.ofNat 32 (min v.toNat (mask f.len.toNat) <<< f.off.toNat)

/-- `encode(chan)`: the OR of the three channel contributions (R100). -/
def encodeBy (chan : Byte → ChannelField → Word) (o : OperandRegs) : Word :=
  chan o.colorR o.redField ||| chan o.colorG o.greenField ||| chan o.colorB o.blueField

/-- `encode_rep` (R100). -/
def encodeRep (o : OperandRegs) : Word := encodeBy chanRep o

/-- `encode_col` (R100). -/
def encodeCol (o : OperandRegs) : Word := encodeBy chanCol o

/-- `zext_32(COLOR.IDX)` (R108, R135). -/
def encodePal (o : OperandRegs) : Word := o.colorIdx.setWidth 32

/-- `check_format()` (R130); what passes it has a container width (R63). -/
def checkFormat (o : OperandRegs) : Except FaultCode Container :=
  match containerOf o.bpp with
  | none => .error .bpp
  | some c => if o.indexed && decide (c ≠ .c8) then .error .indexedBpp else .ok c

/-- The checks of one channel: the bit order before the width (R105). -/
def checkChannel (f : ChannelField) : Except FaultCode Unit := do
  failIf (f.msb = true) .msbFirst
  failIf (8 < f.len.toNat) .width

/-- `check_extract()`: red, then green, then blue (R105). -/
def checkExtract (o : OperandRegs) : Except FaultCode Unit := do
  checkChannel o.redField
  checkChannel o.greenField
  checkChannel o.blueField

/-- ENC_REP (R106). -/
def planEncRep (o : OperandRegs) : Except FaultCode Plan :=
  .ok { accesses := [], result := .raw (encodeRep o) }

/-- ENC_COL (R107). -/
def planEncCol (o : OperandRegs) : Except FaultCode Plan :=
  .ok { accesses := [], result := .raw (encodeCol o) }

/-- ENC_PAL (R108). -/
def planEncPal (o : OperandRegs) : Except FaultCode Plan := do
  let c ← checkFormat o
  failIf (c ≠ .c8) .palBpp
  return { accesses := [], result := .raw (encodePal o) }

/-- EXTRACT (R109). -/
def planExtract (o : OperandRegs) : Except FaultCode Plan := do
  checkExtract o
  return {
    accesses := []
    result := .rgb (packRgb (normalizeChannel o.rawIn o.redField) (normalizeChannel o.rawIn o.greenField)
      (normalizeChannel o.rawIn o.blueField)) }

/-- ENC_REP (R106). -/
def execEncRep (s : State) : Host.Outcome State Fault Refusal := .next (runCommand .encRep planEncRep s)

/-- ENC_COL (R107). -/
def execEncCol (s : State) : Host.Outcome State Fault Refusal := .next (runCommand .encCol planEncCol s)

/-- ENC_PAL (R108). -/
def execEncPal (s : State) : Host.Outcome State Fault Refusal := .next (runCommand .encPal planEncPal s)

/-- EXTRACT (R109). -/
def execExtract (s : State) : Host.Outcome State Fault Refusal := .next (runCommand .extract planExtract s)

end Sys2Proof.Machine
end

