-- ==== Sys2Proof/Machine/Surface.lean ====
section
/-! DEFINITION. The surface commands (41_surface.md). -/

namespace Sys2Proof.Machine

/-- `pixel_target()` (R131): the geometry, bounds and alignment checks, and the container's address. -/
def pixelTarget (o : OperandRegs) (c : Container) : Except FaultCode Word := do
  failIf (o.virtW < o.visW ∨ o.virtH < o.visH) .geom
  failIf (o.visW ≤ o.x ∨ o.visH ≤ o.y) .bounds
  failIf (c.aligned (o.surfaceAddr (o.pixOffset c)) = false) .align
  return o.surfaceAddr (o.pixOffset c)

/-- `offset_target()` (R132): the bounds check on the exact sum, the alignment check, and the container's address. -/
def offsetTarget (o : OperandRegs) (c : Container) : Except FaultCode Word := do
  failIf (o.surfaceSize c < o.offset.toNat + c.nbytes) .bounds
  failIf (c.aligned (o.surfaceAddr o.offset.toNat) = false) .align
  return o.surfaceAddr o.offset.toNat

/-- SETPIX_REP (R133). -/
def planSetpixRep (o : OperandRegs) : Except FaultCode Plan := do
  let c ← checkFormat o
  failIf (o.indexed = true) .mode
  let addr ← pixelTarget o c
  return { accesses := containerWrite c addr (encodeRep o), result := .nothing }

/-- SETPIX_COL (R134). -/
def planSetpixCol (o : OperandRegs) : Except FaultCode Plan := do
  let c ← checkFormat o
  failIf (o.indexed = true) .mode
  let addr ← pixelTarget o c
  return { accesses := containerWrite c addr (encodeCol o), result := .nothing }

/-- SETPIX_PAL (R135). -/
def planSetpixPal (o : OperandRegs) : Except FaultCode Plan := do
  let c ← checkFormat o
  failIf (c ≠ .c8) .palBpp
  let addr ← pixelTarget o c
  return { accesses := containerWrite c addr (encodePal o), result := .nothing }

/-- PUTRAW (R136). -/
def planPutraw (o : OperandRegs) : Except FaultCode Plan := do
  let c ← checkFormat o
  let addr ← pixelTarget o c
  return { accesses := containerWrite c addr o.rawIn, result := .nothing }

/-- GETPIX (R137). -/
def planGetpix (o : OperandRegs) : Except FaultCode Plan := do
  let c ← checkFormat o
  let addr ← pixelTarget o c
  return { accesses := containerRead c addr, result := .container }

/-- GRABPIX (R138). -/
def planGrabpix (o : OperandRegs) : Except FaultCode Plan := do
  let c ← checkFormat o
  failIf (o.indexed = true) .unimpl
  let addr ← pixelTarget o c
  checkExtract o
  return { accesses := containerRead c addr, result := .capture o.redField o.greenField o.blueField }

/-- CWRITE (R139). -/
def planCwrite (o : OperandRegs) : Except FaultCode Plan := do
  let c ← checkFormat o
  let addr ← offsetTarget o c
  return { accesses := containerWrite c addr o.rawIn, result := .nothing }

/-- CREAD (R140). -/
def planCread (o : OperandRegs) : Except FaultCode Plan := do
  let c ← checkFormat o
  let addr ← offsetTarget o c
  return { accesses := containerRead c addr, result := .container }

/-- SETPIX_REP (R133). -/
def execSetpixRep (s : State) : Host.Outcome State Fault Refusal := .next (runCommand .setpixRep planSetpixRep s)

/-- SETPIX_COL (R134). -/
def execSetpixCol (s : State) : Host.Outcome State Fault Refusal := .next (runCommand .setpixCol planSetpixCol s)

/-- SETPIX_PAL (R135). -/
def execSetpixPal (s : State) : Host.Outcome State Fault Refusal := .next (runCommand .setpixPal planSetpixPal s)

/-- PUTRAW (R136). -/
def execPutraw (s : State) : Host.Outcome State Fault Refusal := .next (runCommand .putraw planPutraw s)

/-- GETPIX (R137). -/
def execGetpix (s : State) : Host.Outcome State Fault Refusal := .next (runCommand .getpix planGetpix s)

/-- GRABPIX (R138). -/
def execGrabpix (s : State) : Host.Outcome State Fault Refusal := .next (runCommand .grabpix planGrabpix s)

/-- CWRITE (R139). -/
def execCwrite (s : State) : Host.Outcome State Fault Refusal := .next (runCommand .cwrite planCwrite s)

/-- CREAD (R140). -/
def execCread (s : State) : Host.Outcome State Fault Refusal := .next (runCommand .cread planCread s)

end Sys2Proof.Machine
end

