-- ==== Sys2Proof/Machine/Dispatch.lean ====
section
/-! DEFINITION. `exec`: one arm for each command of the opcode map (30_encoding.md R83). -/

namespace Sys2Proof.Machine

def exec (i : Instr) (s : State) : Host.Outcome State Fault Refusal :=
  match i with
  | .encRep => Sys2Proof.Machine.execEncRep s
  | .encCol => Sys2Proof.Machine.execEncCol s
  | .encPal => Sys2Proof.Machine.execEncPal s
  | .extract => Sys2Proof.Machine.execExtract s
  | .setpixRep => Sys2Proof.Machine.execSetpixRep s
  | .setpixCol => Sys2Proof.Machine.execSetpixCol s
  | .setpixPal => Sys2Proof.Machine.execSetpixPal s
  | .putraw => Sys2Proof.Machine.execPutraw s
  | .getpix => Sys2Proof.Machine.execGetpix s
  | .grabpix => Sys2Proof.Machine.execGrabpix s
  | .cwrite => Sys2Proof.Machine.execCwrite s
  | .cread => Sys2Proof.Machine.execCread s
  | .palBuild => Sys2Proof.Machine.execPalBuild s
  | .palWrite => Sys2Proof.Machine.execPalWrite s
  | .palRead => Sys2Proof.Machine.execPalRead s

end Sys2Proof.Machine
end

