-- ==== Sys2Proof/Machine/Plans.lean ====
section
/-! DEFINITION. The plan of every command, and one turn of the engine: a single access, or the end of the command (20_memory.md
R72, R74). -/

namespace Sys2Proof.Machine

/-- The rule that R83 names for each command: its checks, accesses and result. -/
def planOf (i : Instr) : OperandRegs → Except FaultCode Plan :=
  match i with
  | .encRep => planEncRep
  | .encCol => planEncCol
  | .encPal => planEncPal
  | .extract => planExtract
  | .setpixRep => planSetpixRep
  | .setpixCol => planSetpixCol
  | .setpixPal => planSetpixPal
  | .putraw => planPutraw
  | .getpix => planGetpix
  | .grabpix => planGrabpix
  | .cwrite => planCwrite
  | .cread => planCread
  | .palBuild => planPalBuild
  | .palWrite => planPalWrite
  | .palRead => planPalRead

/-- The accesses of the command in flight, done and to come; none if it is illegal or fails a check. -/
def Flight.accesses (f : Flight) : List Access :=
  match decode f.cmd with
  | .error _ => []
  | .ok i =>
    match planOf i f.ops with
    | .error _ => []
    | .ok p => p.accesses

/-- One access of a command whose checks have passed, or its end after the last access (R74, R75). An access that the memory
does not admit leaves everything as it is (R61). -/
def tickPlan (p : Plan) (f : Flight) (s : State) : State :=
  match p.accesses.drop f.issued with
  | [] => s.complete p.result f.data
  | a :: _ =>
    match performAccess a f s with
    | none => s
    | some (f', s') => { s' with engine := .busy f' }

/-- One turn of the engine (log 2): from Idle nothing; while Busy the decode and the checks (R81), then a single access or the
end of the command. -/
def State.tick (s : State) : State :=
  match s.engine with
  | .idle => s
  | .busy f =>
    match decode f.cmd with
    | .error _ => s.raiseFault .illegal (opcodeByte f.cmd)
    | .ok i =>
      match planOf i f.ops with
      | .error code => s.raiseFault code (opcodeByte f.cmd)
      | .ok p => tickPlan p f s

end Sys2Proof.Machine
end

