-- ==== Sys2Proof/Machine/HostPort.lean ====
section
/-! DEFINITION. What the host can do: register accesses (10_state.md R22 to R41, 30_encoding.md R80, R81), framebuffer accesses
(20_memory.md R76) and reset. -/

namespace Sys2Proof.Machine

/-- The bits of a register that hold a value; the others are reserved, read 0 and discard what is written (R22, R30, R32, R33,
R38 to R41). -/
def storedBits : RegName → Word
  | .fmt => 0x0000013F
  | .rfield => 0x00010F1F
  | .gfield => 0x00010F1F
  | .bfield => 0x00010F1F
  | .color => 0x00FFFFFF
  | .resultRgb => 0x00FFFFFF
  | .markerRgb => 0x00FFFFFF
  | .palIdx => 0x000000FF
  | .palB => 0x0000FFFF
  | .status => 0x0000FFF7
  | .cmd => 0
  | .fbBase => 0xFFFFFFFF
  | .visSize => 0xFFFFFFFF
  | .virtSize => 0xFFFFFFFF
  | .xy => 0xFFFFFFFF
  | .rawIn => 0xFFFFFFFF
  | .offset => 0xFFFFFFFF
  | .resultRaw => 0xFFFFFFFF
  | .palRg => 0xFFFFFFFF

/-- Store a value in an RW register; the other registers are not RW and keep theirs (R22, R23). -/
def OperandRegs.store (o : OperandRegs) (r : RegName) (v : Word) : OperandRegs :=
  match r with
  | .status => o
  | .cmd => o
  | .fbBase => { o with fbBase := v }
  | .fmt => { o with fmt := v }
  | .visSize => { o with visSize := v }
  | .virtSize => { o with virtSize := v }
  | .rfield => { o with rfield := v }
  | .gfield => { o with gfield := v }
  | .bfield => { o with bfield := v }
  | .color => { o with color := v }
  | .xy => { o with xy := v }
  | .rawIn => { o with rawIn := v }
  | .offset => { o with offset := v }
  | .resultRaw => o
  | .resultRgb => o
  | .markerRgb => { o with markerRgb := v }
  | .palIdx => { o with palIdx := v }
  | .palRg => { o with palRg := v }
  | .palB => { o with palB := v }

/-- The value a register holds, with BUSY out of account: `CMD` reads 0 (R28), the others their value (R23). -/
def State.registerValue (s : State) (r : RegName) : Word :=
  match r with
  | .status => s.statusWord
  | .cmd => 0
  | .fbBase => s.rw.fbBase
  | .fmt => s.rw.fmt
  | .visSize => s.rw.visSize
  | .virtSize => s.rw.virtSize
  | .rfield => s.rw.rfield
  | .gfield => s.rw.gfield
  | .bfield => s.rw.bfield
  | .color => s.rw.color
  | .xy => s.rw.xy
  | .rawIn => s.rw.rawIn
  | .offset => s.rw.offset
  | .resultRaw => s.resultRaw
  | .resultRgb => s.resultRgb
  | .markerRgb => s.rw.markerRgb
  | .palIdx => s.rw.palIdx
  | .palRg => s.rw.palRg
  | .palB => s.rw.palB

/-- The registers that a read while BUSY = 1 returns an unspecified value of (R237; log 6, log 16). -/
def resultHazard : RegName → Bool
  | .resultRaw => true
  | .resultRgb => true
  | .palRg => true
  | .palB => true
  | _ => false

/-- A host read of a register (R22, R23, R237). -/
def State.readRegister (s : State) (r : RegName) : State :=
  if s.busy && resultHazard r then { s with hostData := Config.freeWord s.draws, draws := s.draws + 1 }
  else { s with hostData := s.registerValue r }

/-- A host write of `CMD` (R81): ignored while ERR = 1 (R206), dropped with OVR while BUSY = 1 (R27), else the start of a
command: BUSY <- 1 and the snapshot (R82). The rest of R81 is the engine's turn (log 2). -/
def State.writeCommand (s : State) (w : Word) : State :=
  if s.status.err then s
  else if s.busy then s.setOvr
  else { s with engine := .busy (Flight.start w s.rw) }

/-- A host write of a register (R22, R23, R24, R27, R81). -/
def State.writeRegister (s : State) (r : RegName) (v : Word) : State :=
  match r with
  | .status => s.writeStatus v
  | .cmd => s.writeCommand v
  | .resultRaw => s
  | .resultRgb => s
  | _ => if s.busy then s.setOvr else { s with rw := s.rw.store r (v &&& storedBits r) }

/-- The refusal of a register access that is outside the interface (R80; log 10, log 11). -/
def registerAccessRefusal (off size : Nat) : Option Refusal :=
  if size ≠ 4 then some (.registerAccessNotWord size)
  else if off % 4 ≠ 0 then some (.registerAccessMisaligned off)
  else if Config.regSpan ≤ off then some (.registerAccessOutsideWindow off)
  else none

/-- A host register write at an offset from `REG_BASE`; a write to a reserved offset is ignored (R22, R80). -/
def State.hostRegWrite (s : State) (off size : Nat) (v : Word) : Host.Outcome State Fault Refusal :=
  match registerAccessRefusal off size with
  | some r => .refused r
  | none =>
    match regAt off with
    | some r => .next (s.writeRegister r v)
    | none => .next s

/-- A host register read at an offset from `REG_BASE`; a reserved offset reads 0 (R22, R80). -/
def State.hostRegRead (s : State) (off size : Nat) : Host.Outcome State Fault Refusal :=
  match registerAccessRefusal off size with
  | some r => .refused r
  | none =>
    match regAt off with
    | some r => .next (s.readRegister r)
    | none => .next { s with hostData := 0 }

/-- The offset of a bus address from `REG_BASE` (R22, R80; log 10). -/
def windowOffset (addr : Word) : Nat := (addr - Config.regBase).toNat

/-- The first write access of a list that includes an address, numbered from `k`: its number and the byte it writes there. -/
def writeCovering (x : Word) (k : Nat) : List Access → Option (Nat × Byte)
  | [] => none
  | .memWrite a w v :: rest =>
    if covers a w.bytes x then some (k, v.extractLsb' (8 * (x - a).toNat) 8) else writeCovering x (k + 1) rest
  | .memRead _ _ :: rest => writeCovering x (k + 1) rest
  | .palWrite _ _ :: rest => writeCovering x (k + 1) rest

/-- Whether a read access of a list includes an address. -/
def readCovering (x : Word) : List Access → Bool
  | [] => false
  | .memRead a w :: rest => covers a w.bytes x || readCovering x rest
  | .memWrite _ _ _ :: rest => readCovering x rest
  | .palWrite _ _ :: rest => readCovering x rest

/-- Whether a host access of `n` bytes at `a` meets a write of the running command: a race (R76). -/
def Flight.writeRace (f : Flight) (a : Word) : Nat → Bool
  | 0 => false
  | n + 1 => (writeCovering a 0 f.accesses).isSome || f.writeRace (a + 1) n

/-- A byte as a host read sees it while a command is in flight: in a race the old or the new value, one choice for each access
of the command (R72, R76; log 7). DESIGN CHOICE: a write access that the memory does not admit races like any other, in a stuck
command too, so the read may return the byte that is never written; R61 and R76 do not say (log 19). -/
def Flight.hostByte (f : Flight) (s : State) (x : Word) : Byte :=
  match writeCovering x 0 f.accesses with
  | none => readByte s.mem x
  | some (k, v) =>
    if Config.raceChoice (s.draws + k) then (if k < f.issued then readByte s.mem x else v)
    else (if k < f.issued then f.earlierByte s.mem f.old.length x else readByte s.mem x)

/-- A host read of the framebuffer (R5, R75, R76; log 7, log 13). -/
def State.hostFbRead (s : State) (a : Word) (w : Width) : State :=
  match s.engine with
  | .idle => { s with hostData := readBytes s.mem a w.bytes }
  | .busy f =>
    { s with
      hostData := assembleLE (f.hostByte s) a w.bytes
      draws := if f.writeRace a w.bytes then s.draws + f.accesses.length else s.draws }

/-- Whether a host access of `n` bytes at `a` meets a read of the running command: a race if it is a write (R76). -/
def Flight.readRace (f : Flight) (a : Word) : Nat → Bool
  | 0 => false
  | n + 1 => readCovering a f.accesses || f.readRace (a + 1) n

/-- The value that the running command has already written to a byte, if it has (R74). -/
def Flight.writtenByte (f : Flight) (x : Word) : Option Byte :=
  match writeCovering x 0 f.accesses with
  | some (k, v) => if k < f.issued then some v else none
  | none => none

/-- One byte of a host write while a command is in flight: a byte that the command has already written ends with the command's
value or the host's (R76; log 7). DESIGN CHOICE: each of several host writes to one such byte is decided on its own, and one that is
overwritten leaves the command's value, whatever an earlier host write left there (log 7). -/
def Flight.hostWriteByte (f : Flight) (s : State) (x : Word) (v : Byte) : State :=
  match f.writtenByte x with
  | some c =>
    { s with
      mem := writeByte s.mem x (if Config.raceChoice s.draws then c else v)
      draws := s.draws + 1 }
  | none => { s with mem := writeByte s.mem x v }

/-- The bytes of a host write while a command is in flight, one after the other. -/
def Flight.hostWriteBytes (f : Flight) (s : State) (a : Word) (n : Nat) (v : Word) : State :=
  match n with
  | 0 => s
  | n + 1 => f.hostWriteBytes (f.hostWriteByte s a (v.extractLsb' 0 8)) (a + 1) n (v >>> 8)

/-- A host write of the framebuffer (R5, R75, R76; log 13). A running command remembers the bytes that a write to its container
replaced, for the reads that race with it (log 7). -/
def State.hostFbWrite (s : State) (a : Word) (w : Width) (v : Word) : State :=
  match s.engine with
  | .idle => { s with mem := writeBytes s.mem a w.bytes v }
  | .busy f =>
    if f.readRace a w.bytes then
      { s with
        mem := writeBytes s.mem a w.bytes v
        engine := .busy { f with old := cellsAt s.mem a w.bytes :: f.old } }
    else f.hostWriteBytes s a w.bytes v

/-- One event of the agenda. `poll` is here the read of `STATUS` that ends a POLL (R87). -/
def hostEvent (e : Event) (s : State) : Host.Outcome State Fault Refusal :=
  match e with
  | .regWrite off size v => s.hostRegWrite off size v
  | .regRead off size => s.hostRegRead off size
  | .fbWrite a w v => .next (s.hostFbWrite a w v)
  | .fbRead a w => .next (s.hostFbRead a w)
  | .reset => .next s.resetBlock
  | .engine => .next s.tick
  | .poll => .next (s.readRegister .status)

end Sys2Proof.Machine
end

