-- ==== Sys2Proof/Machine/Turn.lean ====
section
/-! DEFINITION. Whose turn a step is, and the engine's turn: the command in flight is decoded and runs to its end (30_encoding.md
R81). -/

namespace Sys2Proof.Machine

/-- The engine moves when the host has nothing to do, or waits in a POLL (R87) for BUSY to fall (log 1, log 2). -/
def State.engineMoves (s : State) : Bool :=
  match s.agenda with
  | [] => true
  | .poll :: _ => s.busy
  | _ => false

/-- The engine's turn (R43, R81): from Idle nothing happens; while Busy an illegal word takes the fault E_ILLEGAL (R84), and a
command runs to its end. -/
def engineTurn (s : State) : Host.Outcome State Fault Refusal :=
  match s.engine with
  | .idle => .next s
  | .busy f =>
    match decode f.cmd with
    | .error _ => .next (s.raiseFault .illegal (opcodeByte f.cmd))
    | .ok i => exec i s

/-- The host's turn: the head of the agenda happens and is gone. -/
def hostTurn (s : State) : Host.Outcome State Fault Refusal :=
  match s.agenda with
  | [] => .next s
  | e :: rest => hostEvent e { s with agenda := rest }

/-- The state in which the command word `w` has just been accepted and nothing but the engine is to move: BUSY = 1 with the
registers' snapshot (R81, R82), no fault recorded (R206), no host event to come. -/
def State.withCommand (s : State) (w : Word) : State :=
  { s with
    engine := .busy (Flight.start w s.rw)
    status := { s.status with err := false, errcode := 0, errop := 0 }
    agenda := [] }

end Sys2Proof.Machine
end

