-- ==== Sys2Proof/Machine/Step.lean ====
section
/-! DEFINITION. One step of the machine. -/

namespace Sys2Proof.Machine

/-- One step: a turn of the engine or a turn of the host, as the agenda says (log 1). -/
def step (s : State) : Host.Outcome State Fault Refusal :=
  if s.engineMoves then engineTurn s else hostTurn s

/-- `s` with the command word `w` (the bits above `nbits` zero) in the engine, where the step finds its next command. It stands
for the host's write of `CMD` in a block that accepts it (R81; log 1, log 15). -/
def State.withFetchWord (s : State) (nbits w : Nat) : State := s.withCommand (tableWord nbits w)

end Sys2Proof.Machine
end

