-- ==== Sys2Proof/Machine/HostProgram.lean ====
section
/-! DEFINITION. The host notation (30_encoding.md R86, R87): each line's expansion into host events. -/

namespace Sys2Proof.Machine

/-- The 32-bit write `WR <REG>, v` (R86). -/
def writeOf (r : RegName) (v : Word) : Event := .regWrite (regOffset r) 4 v

/-- The 32-bit read `RD <REG>` (R86). -/
def readOf (r : RegName) : Event := .regRead (regOffset r) 4

/-- `<MNEMONIC>`: `WR CMD, 0x000000OP` (R86). -/
def commandOf (i : Instr) : Event := writeOf .cmd (encode i)

/-- The ChannelField register of a channel (R32). -/
def fieldReg : Channel → RegName
  | .red => .rfield
  | .green => .gfield
  | .blue => .bfield

/-- The geometry register that `SIZE` names (R87). -/
def sizeReg : SizeReg → RegName
  | .visible => .visSize
  | .virtual => .virtSize

/-- The expansion of a line (R86, R87). -/
def expandLine (l : HostLine) : List Event :=
  match l with
  | .wr r v => [writeOf r v]
  | .rd r => [readOf r]
  | .command i => [commandOf i]
  | .poll => [.poll]
  | .run i => [commandOf i, .poll]
  | .setXY x y => [writeOf .xy (BitVec.ofNat 32 ((y <<< 16) ||| x))]
  | .setRGB r g b => [writeOf .color (BitVec.ofNat 32 ((r <<< 16) ||| (g <<< 8) ||| b))]
  | .setIdx i => [writeOf .color (BitVec.ofNat 32 i)]
  | .field c off len msb => [writeOf (fieldReg c) (BitVec.ofNat 32 (off ||| (len <<< 8) ||| (msb <<< 16)))]
  | .size which w h => [writeOf (sizeReg which) (BitVec.ofNat 32 ((h <<< 16) ||| w))]
  | .format bpp indexed => [writeOf .fmt (BitVec.ofNat 32 (bpp ||| (indexed <<< 8)))]
  | .check => [readOf .status]

/-- A host program as an agenda: its lines' expansions, one after the other (R86). -/
def expandProgram : List HostLine → List Event
  | [] => []
  | l :: rest => expandLine l ++ expandProgram rest

/-- `CHECK`: the program is in error if ERR read 1 (R87). -/
def checkFails (s : State) : Bool := s.hostData.getLsbD 1

end Sys2Proof.Machine
end

