-- ==== Sys2Proof/Safety.lean ====
section
/-! DEFINITION. What counts as a sound state of the block, in the terms the statements use. -/

namespace Sys2Proof.Machine

/-- The reserved bits of the RW registers read 0 (10_state.md R22). -/
def OperandRegs.reservedZero (o : OperandRegs) : Bool :=
  decide (o.fmt &&& ~~~(storedBits .fmt) = 0) && decide (o.rfield &&& ~~~(storedBits .rfield) = 0) &&
  decide (o.gfield &&& ~~~(storedBits .gfield) = 0) && decide (o.bfield &&& ~~~(storedBits .bfield) = 0) &&
  decide (o.color &&& ~~~(storedBits .color) = 0) && decide (o.markerRgb &&& ~~~(storedBits .markerRgb) = 0) &&
  decide (o.palIdx &&& ~~~(storedBits .palIdx) = 0) && decide (o.palB &&& ~~~(storedBits .palB) = 0)

/-- `STATUS` records a fault of R201 when ERR = 1, and nothing when ERR = 0 (10_state.md R24, R26, 60_exceptions.md R201). -/
def Status.sound (t : Status) : Bool :=
  if t.err then decide (1 ≤ t.errcode.toNat) && decide (t.errcode.toNat ≤ 11)
  else decide (t.errcode = 0) && decide (t.errop = 0)

/-- A Busy engine runs in a block without a fault, on a snapshot equal to the registers (30_encoding.md R82, 60_exceptions.md
R206). -/
def State.engineSound (s : State) : Bool :=
  match s.engine with
  | .idle => true
  | .busy f => !s.status.err && decide (f.ops = s.rw)

/-- The invariant of the block: both stores in their canonical form, the reserved bits 0, `STATUS` and the engine sound. -/
def State.sound (s : State) : Bool :=
  s.mem.wf && s.pal.wf && s.rw.reservedZero && decide (s.resultRgb &&& ~~~(storedBits .resultRgb) = 0) &&
  s.status.sound && s.engineSound

/-- The operands a command of this state reads: the snapshot while Busy, the registers from Idle (30_encoding.md R82). -/
def State.operands (s : State) : OperandRegs :=
  match s.engine with
  | .idle => s.rw
  | .busy f => f.ops

/-- The command word of this state's command is `i`'s: always from Idle, while Busy if it was written to `CMD` (R81). -/
def State.commandIs (s : State) (i : Instr) : Bool :=
  match s.engine with
  | .idle => true
  | .busy f => decide (f.cmd = encode i)

/-- A command of this state is at its start: no access of it has completed, and no host write has raced with it (R76, R82). -/
def State.atStart (s : State) : Bool :=
  match s.engine with
  | .idle => true
  | .busy f => decide (f.issued = 0) && decide (f.data = 0) && decide (f.old = [])

/-- The format check passes with this container (41_surface.md R130). -/
def OperandRegs.formatOk (o : OperandRegs) (c : Container) : Bool :=
  decide (containerOf o.bpp = some c) && (!o.indexed || decide (c = .c8))

/-- Every check of a pixel command passes with this container (R130, R131). -/
def OperandRegs.pixelOk (o : OperandRegs) (c : Container) : Bool :=
  o.formatOk c && decide (o.visW ≤ o.virtW) && decide (o.visH ≤ o.virtH) && decide (o.x < o.visW) &&
  decide (o.y < o.visH) && c.aligned (o.surfaceAddr (o.pixOffset c))

/-- Every check of an offset command passes with this container (R130, R132). -/
def OperandRegs.offsetOk (o : OperandRegs) (c : Container) : Bool :=
  o.formatOk c && decide (o.offset.toNat + c.nbytes ≤ o.surfaceSize c) && c.aligned (o.surfaceAddr o.offset.toNat)

/-- The extraction checks pass in every channel (40_codec.md R105). -/
def OperandRegs.extractOk (o : OperandRegs) : Bool :=
  !o.redField.msb && decide (o.redField.len.toNat ≤ 8) && !o.greenField.msb && decide (o.greenField.len.toNat ≤ 8) &&
  !o.blueField.msb && decide (o.blueField.len.toNat ≤ 8)

/-- The memory admits every access of one kind that a container at an address takes (20_memory.md R61, R64, R65). -/
def State.admitsContainer (s : State) (kind : AccessKind) (c : Container) (addr : Word) : Bool :=
  match c with
  | .c8 => s.admits kind .b1 addr
  | .c16 => s.admits kind .b2 addr
  | .c24 => s.admits kind .b1 addr && s.admits kind .b1 (addr + 1) && s.admits kind .b1 (addr + 2)
  | .c32 => s.admits kind .b4 addr

/-- The memory admits every access of a list (R61). -/
def State.admitsAll (s : State) (l : List Access) : Bool :=
  l.all (fun a =>
    match a with
    | .memRead x w => s.admits .read w x
    | .memWrite x w _ => s.admits .write w x
    | .palWrite _ _ => true)

end Sys2Proof.Machine
end

