-- ==== Sys2Proof/Certificates/Slice0/Obligations.lean ====
section
/-! DEFINITION. The statements for the provers: what the numbered rules of spec/ say the block does. -/

open Sys2Proof Sys2Proof.Machine

/-! ## The words the statements use -/

/-- The state right after the fault entry of 60_exceptions.md R204 with an error code and a command byte. -/
def faultState (s : State) (code : BitVec 4) (op : BitVec 8) : State :=
  { s with
    status := { err := true, ovr := s.status.ovr, errcode := code, errop := op }
    engine := .idle }

/-- Bit `j` of a raw value under the replication policy (R101): the single bit `v - 1` of the field when `1 ≤ v ≤ L`, every bit
of the field when `v > L`. -/
def replicationBit (v : Byte) (f : ChannelField) (j : Nat) : Prop :=
  v.toNat ≠ 0 ∧
    (if v.toNat ≤ f.len.toNat then j = f.off.toNat + (v.toNat - 1)
     else f.off.toNat ≤ j ∧ j < f.off.toNat + f.len.toNat)

/-- The 8-bit intensity of a channel of a raw value (R104): `((raw >> OFF) mod 2^LEN) * 2^(8 - LEN)`. -/
def channelIntensity (raw : Word) (f : ChannelField) : Nat :=
  raw.toNat / 2 ^ f.off.toNat % 2 ^ f.len.toNat * 2 ^ (8 - f.len.toNat)

/-- Three intensities in the layout of `RESULT_RGB` (R38). -/
def rgbWord (r g b : Nat) : Word := BitVec.ofNat 32 (r * 2 ^ 16 + g * 2 ^ 8 + b)

/-- Memory `m'` is `m` with a container holding `raw` at `addr`: byte `k` of the container is bits `[8k+7:8k]` of `raw`, and
every byte outside the container is as before (20_memory.md R62, R64). -/
def storesContainer (m m' : Memory) (c : Container) (addr raw : Word) : Prop :=
  ∀ x : Word, readByte m' x =
    if (x - addr).toNat < c.nbytes then raw.extractLsb' (8 * (x - addr).toNat) 8 else readByte m x

/-- `raw` is the value of the container at `addr`, zero-extended: its byte `k` is the memory byte at `addr + k` (R62, R65). -/
def isContainerValue (m : Memory) (c : Container) (addr raw : Word) : Prop :=
  (∀ k, k < c.nbytes → raw.extractLsb' (8 * k) 8 = readByte m (addr + BitVec.ofNat 32 k)) ∧
    raw.toNat < 2 ^ (8 * c.nbytes)

/-- The command stores `raw` in the container at `addr`, completes, and changes nothing else. -/
def storesAndCompletes (i : Instr) (s : State) (c : Container) (addr raw : Word) : Prop :=
  ∃ t : State, exec i s = .next t ∧ t = { s with mem := t.mem, engine := .idle } ∧
    storesContainer s.mem t.mem c addr raw

/-- The address of pixel (X, Y) (R68, R70). -/
def pixelAddr (o : OperandRegs) (c : Container) : Word := o.surfaceAddr (o.pixOffset c)

/-- The address of byte offset OFFSET (R69, R70). -/
def offsetAddr (o : OperandRegs) : Word := o.surfaceAddr o.offset.toNat

/-- The first code of a list whose condition holds (60_exceptions.md R203: "the first its pseudocode raises"). -/
def firstFault : List (Bool × BitVec 4) → Option (BitVec 4)
  | [] => none
  | (c, code) :: rest => if c then some code else firstFault rest

/-- E_BPP and E_INDEXED_BPP (R130). -/
def formatFaults (o : OperandRegs) : List (Bool × BitVec 4) :=
  [ (decide (o.bpp.toNat ∉ [8, 16, 24, 32]), 2)
  , (o.indexed && decide (o.bpp.toNat ≠ 8), 3) ]

/-- E_ALIGN for a container of FMT.BPP bits at an exact byte offset from FB_BASE (R67, R70). -/
def alignFault (o : OperandRegs) (off : Nat) : Bool × BitVec 4 :=
  (decide (o.bpp.toNat = 16 ∧ (o.fbBase.toNat + off) % 2 ^ 32 % 2 ≠ 0 ∨
    o.bpp.toNat = 32 ∧ (o.fbBase.toNat + off) % 2 ^ 32 % 4 ≠ 0), 11)

/-- E_GEOM, E_BOUNDS, E_ALIGN of a pixel command (R131). -/
def pixelFaults (o : OperandRegs) : List (Bool × BitVec 4) :=
  [ (decide (o.visW > o.virtW ∨ o.visH > o.virtH), 9)
  , (decide (o.x ≥ o.visW ∨ o.y ≥ o.visH), 10)
  , alignFault o (o.y * (o.virtW * (o.bpp.toNat / 8)) + o.x * (o.bpp.toNat / 8)) ]

/-- E_BOUNDS, E_ALIGN of an offset command (R132). -/
def offsetFaults (o : OperandRegs) : List (Bool × BitVec 4) :=
  [ (decide (o.offset.toNat + o.bpp.toNat / 8 > o.virtW * (o.bpp.toNat / 8) * o.virtH), 10)
  , alignFault o o.offset.toNat ]

/-- E_MSB_FIRST and E_WIDTH, red then green then blue (R105). -/
def extractFaults (o : OperandRegs) : List (Bool × BitVec 4) :=
  [ (o.redField.msb, 5), (decide (o.redField.len.toNat > 8), 6)
  , (o.greenField.msb, 5), (decide (o.greenField.len.toNat > 8), 6)
  , (o.blueField.msb, 5), (decide (o.blueField.len.toNat > 8), 6) ]

/-- The faults a command can raise, in priority order: the table of R202 with each cause of R201. -/
def faultTable (i : Instr) (o : OperandRegs) : List (Bool × BitVec 4) :=
  match i with
  | .encRep => []
  | .encCol => []
  | .encPal => formatFaults o ++ [(decide (o.bpp.toNat ≠ 8), 4)]
  | .extract => extractFaults o
  | .setpixRep => formatFaults o ++ [(o.indexed, 8)] ++ pixelFaults o
  | .setpixCol => formatFaults o ++ [(o.indexed, 8)] ++ pixelFaults o
  | .setpixPal => formatFaults o ++ [(decide (o.bpp.toNat ≠ 8), 4)] ++ pixelFaults o
  | .putraw => formatFaults o ++ pixelFaults o
  | .getpix => formatFaults o ++ pixelFaults o
  | .grabpix => formatFaults o ++ [(o.indexed, 7)] ++ pixelFaults o ++ extractFaults o
  | .cwrite => formatFaults o ++ offsetFaults o
  | .cread => formatFaults o ++ offsetFaults o
  | .palBuild => []
  | .palWrite => []
  | .palRead => []

/-- The RW registers of R23 with the bits that each stores (R29 to R41). -/
def rwRegisters : List (RegName × Word) :=
  [ (.fbBase, 0xFFFFFFFF), (.fmt, 0x13F), (.visSize, 0xFFFFFFFF), (.virtSize, 0xFFFFFFFF), (.rfield, 0x10F1F)
  , (.gfield, 0x10F1F), (.bfield, 0x10F1F), (.color, 0xFFFFFF), (.xy, 0xFFFFFFFF), (.rawIn, 0xFFFFFFFF)
  , (.offset, 0xFFFFFFFF), (.markerRgb, 0xFFFFFF), (.palIdx, 0xFF), (.palRg, 0xFFFFFFFF), (.palB, 0xFFFF) ]

/-- A 32-bit host write of a register at its offset (R80, R86). -/
def hostWrites (s : State) (r : RegName) (v : Word) : Host.Outcome State Fault Refusal :=
  hostEvent (.regWrite (regOffset r) 4 v) s

/-- A 32-bit host read of a register at its offset (R80, R86). -/
def hostReads (s : State) (r : RegName) : Host.Outcome State Fault Refusal :=
  hostEvent (.regRead (regOffset r) 4) s

/-- A line of the host notation that is one event, and that event's effect (R86, R87). -/
def lineRuns (l : HostLine) (s t : State) : Prop :=
  ∃ e, expandLine l = [e] ∧ hostEvent e s = .next t

/-- The ChannelField of a channel (R32). -/
def channelOf (o : OperandRegs) : Channel → ChannelField
  | .red => o.redField
  | .green => o.greenField
  | .blue => o.blueField

/-- A byte of memory after the write accesses of a list, each byte written at most once: the byte written there, or the byte as
it was. -/
def byteAfter (l : List Access) (m : Memory) (x : Word) : Byte :=
  match writeCovering x 0 l with
  | none => readByte m x
  | some (_, v) => v

/-- `d` holds `n` bytes, little-endian, byte `j` as the function says, and is zero above them (R62). -/
def hasBytes (d : Word) (n : Nat) (byteAt : Nat → Byte) : Prop :=
  (∀ j, j < n → d.extractLsb' (8 * j) 8 = byteAt j) ∧ d.toNat < 2 ^ (8 * n)

/-! ## Decoding -/

/-- From R81, R84, R85: a word decodes to a command exactly when it is that command's word 0x000000OP. -/
def Obligations.DecodeExactlyCommandWords : Prop :=
  ∀ (w : Word) (i : Instr), decode w = .ok i ↔ w = encode i

/-- From R83: the fifteen words of the opcode map, written out, decode to their commands. -/
def Obligations.FamilyWordsDecode : Prop :=
  decode 0x00000001#32 = .ok .encRep ∧ decode 0x00000002#32 = .ok .encCol ∧ decode 0x00000003#32 = .ok .encPal ∧
    decode 0x00000004#32 = .ok .extract ∧ decode 0x00000010#32 = .ok .setpixRep ∧ decode 0x00000011#32 = .ok .setpixCol ∧
    decode 0x00000012#32 = .ok .setpixPal ∧ decode 0x00000013#32 = .ok .putraw ∧ decode 0x00000014#32 = .ok .getpix ∧
    decode 0x00000015#32 = .ok .grabpix ∧ decode 0x00000020#32 = .ok .cwrite ∧ decode 0x00000021#32 = .ok .cread ∧
    decode 0x00000030#32 = .ok .palBuild ∧ decode 0x00000031#32 = .ok .palWrite ∧ decode 0x00000032#32 = .ok .palRead

/-- R84: an illegal command word faults with E_ILLEGAL and has no other effect; none is a no-op. -/
def Obligations.IllegalWordFaults : Prop :=
  ∀ (s : State) (f : Flight), s.engineMoves = true → s.engine = .busy f →
    (f.cmd.extractLsb' 8 24 ≠ 0 ∨
      (f.cmd.toNat % 256 = 0x00 ∨ 0x05 ≤ f.cmd.toNat % 256 ∧ f.cmd.toNat % 256 ≤ 0x0F ∨
        0x16 ≤ f.cmd.toNat % 256 ∧ f.cmd.toNat % 256 ≤ 0x1F ∨ 0x22 ≤ f.cmd.toNat % 256 ∧ f.cmd.toNat % 256 ≤ 0x2F ∨
        0x33 ≤ f.cmd.toNat % 256)) →
    step s = .next (faultState s 1 (BitVec.ofNat 8 f.cmd.toNat))

/-! ## Steps -/

/-- When it is the engine's turn and the command word in flight decodes, the step is that command's meaning on that very state. -/
def Obligations.StepRunsDecodedCommand : Prop :=
  ∀ (s : State) (f : Flight) (i : Instr), s.engineMoves = true → s.engine = .busy f → decode f.cmd = .ok i →
    step s = exec i s

/-- A word placed where the step finds its next command is the command that the next step runs. -/
def Obligations.StepRunsFetchWord : Prop :=
  ∀ (s : State) (nbits w : Nat) (i : Instr), decodeTableWord nbits w = some i →
    step (s.withFetchWord nbits w) = exec i (s.withFetchWord nbits w)

/-- Every other step, by the agenda that is the model's own (log 1): an Idle block with nothing to do keeps all state, and an
event at the head of the agenda happens and is gone. -/
def Obligations.StepTakesHostTurn : Prop :=
  (∀ s : State, s.agenda = [] → s.engine = .idle → step s = .next s) ∧
    (∀ (s : State) (e : Event) (rest : List Event), s.agenda = e :: rest → (e ≠ .poll ∨ s.busy = false) →
      step s = hostEvent e { s with agenda := rest })

/-! ## Pure codec commands -/

/-- R101: the replication code of an intensity, bit by bit. -/
def Obligations.ReplicationCodeBits : Prop :=
  ∀ (v : Byte) (f : ChannelField) (j : Nat),
    (chanRep v f).getLsbD j = true ↔ j < 32 ∧ replicationBit v f j

/-- R102: the clamped code of an intensity, `min(v, 2^L - 1) * 2^O` kept to 32 bits; a length of 8 or more passes it unclamped. -/
def Obligations.ClampedCodeValue : Prop :=
  (∀ (v : Byte) (f : ChannelField),
    (chanCol v f).toNat = min v.toNat (2 ^ f.len.toNat - 1) * 2 ^ f.off.toNat % 2 ^ 32) ∧
  (∀ (v : Byte) (f : ChannelField), 8 ≤ f.len.toNat → (chanCol v f).toNat = v.toNat * 2 ^ f.off.toNat % 2 ^ 32)

/-- R103: extraction, and its round trip with the clamped code. -/
def Obligations.ExtractInvertsClampedCode : Prop :=
  (∀ (raw : Word) (f : ChannelField), extractField raw f = raw.toNat / 2 ^ f.off.toNat % 2 ^ f.len.toNat) ∧
  (∀ (v : Byte) (f : ChannelField), f.len.toNat ≤ 8 → f.off.toNat + f.len.toNat ≤ 32 → v.toNat ≤ 2 ^ f.len.toNat - 1 →
    extractField (chanCol v f) f = v.toNat)

/-- From R104: normalize left-justifies the channel in 8 bits; its low 8 - L bits are 0. -/
def Obligations.NormalizeLeftJustifies : Prop :=
  ∀ (raw : Word) (f : ChannelField), f.len.toNat ≤ 8 →
    (normalizeChannel raw f).toNat = channelIntensity raw f ∧ (normalizeChannel raw f).toNat % 2 ^ (8 - f.len.toNat) = 0

/-- R106: ENC_REP, the word 0x00000001, writes the OR of the three replication codes to RESULT_RAW, completes in every state,
and changes nothing else. -/
def Obligations.EncRepWritesRawValue : Prop :=
  encode .encRep = 0x00000001#32 ∧ ∀ s : State, ∃ t : State,
    exec .encRep s = .next t ∧ t = { s with resultRaw := t.resultRaw, engine := .idle } ∧
    ∀ j : Nat, t.resultRaw.getLsbD j = true ↔ j < 32 ∧
      (replicationBit s.operands.colorR s.operands.redField j ∨ replicationBit s.operands.colorG s.operands.greenField j ∨
        replicationBit s.operands.colorB s.operands.blueField j)

/-- R107: ENC_COL, the word 0x00000002, writes the OR of the three clamped codes to RESULT_RAW, completes in every state, and
changes nothing else. -/
def Obligations.EncColWritesRawValue : Prop :=
  encode .encCol = 0x00000002#32 ∧ ∀ s : State, ∃ t : State,
    exec .encCol s = .next t ∧ t = { s with resultRaw := t.resultRaw, engine := .idle } ∧
    t.resultRaw.toNat =
      (min s.operands.colorR.toNat (2 ^ s.operands.redField.len.toNat - 1) * 2 ^ s.operands.redField.off.toNat |||
        min s.operands.colorG.toNat (2 ^ s.operands.greenField.len.toNat - 1) * 2 ^ s.operands.greenField.off.toNat |||
        min s.operands.colorB.toNat (2 ^ s.operands.blueField.len.toNat - 1) * 2 ^ s.operands.blueField.off.toNat) % 2 ^ 32

/-- From R108: ENC_PAL at 8 bits per pixel writes the index to RESULT_RAW, completes, and changes nothing else. -/
def Obligations.EncPalWritesIndex : Prop :=
  ∀ s : State, s.operands.bpp.toNat = 8 →
    exec .encPal s =
      .next { s with resultRaw := BitVec.ofNat 32 (s.operands.color.toNat % 256), engine := .idle }

/-- From R109: EXTRACT with three legal fields writes the three normalized channels to RESULT_RGB, completes, and changes
nothing else. -/
def Obligations.ExtractWritesIntensities : Prop :=
  ∀ s : State, s.operands.extractOk = true →
    exec .extract s =
      .next { s with
        resultRgb := rgbWord (channelIntensity s.operands.rawIn s.operands.redField)
          (channelIntensity s.operands.rawIn s.operands.greenField)
          (channelIntensity s.operands.rawIn s.operands.blueField)
        engine := .idle }

/-- From R45, R102, R103, R104, R107 and R109: with three fields of at most 8 bits that do not overlap and fit in 32 bits,
EXTRACT of an ENC_COL result gives every in-range intensity back, left-justified. -/
def Obligations.ExtractInvertsEncCol : Prop :=
  ∀ (s t u : State), s.engine = .idle → s.rw.extractOk = true →
    (∀ c ∈ [s.rw.redField, s.rw.greenField, s.rw.blueField], c.off.toNat + c.len.toNat ≤ 32) →
    List.Pairwise (fun a b : ChannelField => a.off.toNat + a.len.toNat ≤ b.off.toNat ∨ b.off.toNat + b.len.toNat ≤ a.off.toNat)
      [s.rw.redField, s.rw.greenField, s.rw.blueField] →
    s.rw.colorR.toNat < 2 ^ s.rw.redField.len.toNat → s.rw.colorG.toNat < 2 ^ s.rw.greenField.len.toNat →
    s.rw.colorB.toNat < 2 ^ s.rw.blueField.len.toNat →
    exec .encCol s = .next t →
    exec .extract { t with rw := { t.rw with rawIn := t.resultRaw } } = .next u →
    u.resultRgb = rgbWord (s.rw.colorR.toNat * 2 ^ (8 - s.rw.redField.len.toNat))
      (s.rw.colorG.toNat * 2 ^ (8 - s.rw.greenField.len.toNat)) (s.rw.colorB.toNat * 2 ^ (8 - s.rw.blueField.len.toNat))

/-! ## Surface commands -/

/-- From R133, R134: SETPIX_REP and SETPIX_COL, every check passed and every access admitted, store the encoded colour in the
container of pixel (X, Y), complete, and change nothing else. -/
def Obligations.SetpixStoresEncodedColour : Prop :=
  ∀ (s : State) (c : Container), s.mem.wf = true → s.atStart = true → s.operands.pixelOk c = true →
    s.operands.indexed = false → s.admitsContainer .write c (pixelAddr s.operands c) = true →
    storesAndCompletes .setpixRep s c (pixelAddr s.operands c) (encodeRep s.operands) ∧
      storesAndCompletes .setpixCol s c (pixelAddr s.operands c) (encodeCol s.operands)

/-- From R135: SETPIX_PAL at 8 bits per pixel, every check passed and the access admitted, stores the index byte at pixel (X,
Y), completes, and changes nothing else. -/
def Obligations.SetpixPalStoresIndex : Prop :=
  ∀ s : State, s.mem.wf = true → s.atStart = true → s.operands.pixelOk .c8 = true →
    s.admitsContainer .write .c8 (pixelAddr s.operands .c8) = true →
    storesAndCompletes .setpixPal s .c8 (pixelAddr s.operands .c8) (BitVec.ofNat 32 (s.operands.color.toNat % 256))

/-- From R136: PUTRAW, every check passed and every access admitted, stores RAW_IN in the container of pixel (X, Y), completes,
and changes nothing else. -/
def Obligations.PutrawStoresRawIn : Prop :=
  ∀ (s : State) (c : Container), s.mem.wf = true → s.atStart = true → s.operands.pixelOk c = true →
    s.admitsContainer .write c (pixelAddr s.operands c) = true →
    storesAndCompletes .putraw s c (pixelAddr s.operands c) s.operands.rawIn

/-- From R139: CWRITE, every check passed and every access admitted, stores RAW_IN in the container at byte offset OFFSET,
completes, and changes nothing else. -/
def Obligations.CwriteStoresRawIn : Prop :=
  ∀ (s : State) (c : Container), s.mem.wf = true → s.atStart = true → s.operands.offsetOk c = true →
    s.admitsContainer .write c (offsetAddr s.operands) = true →
    storesAndCompletes .cwrite s c (offsetAddr s.operands) s.operands.rawIn

/-- From R137: GETPIX, every check passed and every access admitted, writes the container of pixel (X, Y) to RESULT_RAW,
zero-extended, completes, and changes nothing else. -/
def Obligations.GetpixReadsContainer : Prop :=
  ∀ (s : State) (c : Container), s.atStart = true → s.operands.pixelOk c = true →
    s.admitsContainer .read c (pixelAddr s.operands c) = true →
    ∃ t : State, exec .getpix s = .next t ∧ t = { s with resultRaw := t.resultRaw, engine := .idle } ∧
      isContainerValue s.mem c (pixelAddr s.operands c) t.resultRaw

/-- From R138: GRABPIX, every check passed and every access admitted, writes the container of pixel (X, Y) to RESULT_RAW and its
three normalized channels to RESULT_RGB, completes, and changes nothing else. -/
def Obligations.GrabpixReadsIntensities : Prop :=
  ∀ (s : State) (c : Container), s.atStart = true → s.operands.pixelOk c = true → s.operands.indexed = false →
    s.operands.extractOk = true → s.admitsContainer .read c (pixelAddr s.operands c) = true →
    ∃ t : State, exec .grabpix s = .next t ∧
      t = { s with resultRaw := t.resultRaw, resultRgb := t.resultRgb, engine := .idle } ∧
      isContainerValue s.mem c (pixelAddr s.operands c) t.resultRaw ∧
      t.resultRgb = rgbWord (channelIntensity t.resultRaw s.operands.redField)
        (channelIntensity t.resultRaw s.operands.greenField) (channelIntensity t.resultRaw s.operands.blueField)

/-- From R140: CREAD, every check passed and every access admitted, writes the container at byte offset OFFSET to RESULT_RAW,
zero-extended, completes, and changes nothing else. -/
def Obligations.CreadReadsContainer : Prop :=
  ∀ (s : State) (c : Container), s.atStart = true → s.operands.offsetOk c = true →
    s.admitsContainer .read c (offsetAddr s.operands) = true →
    ∃ t : State, exec .cread s = .next t ∧ t = { s with resultRaw := t.resultRaw, engine := .idle } ∧
      isContainerValue s.mem c (offsetAddr s.operands) t.resultRaw

/-- From R140, R64, R65: CWRITE then CREAD at one offset returns the written value truncated to the container, and reads without
changing the memory. -/
def Obligations.CreadReturnsCwrittenValue : Prop :=
  ∀ (s : State) (c : Container), s.sound = true → s.atStart = true → s.operands.offsetOk c = true →
    s.admitsContainer .write c (offsetAddr s.operands) = true → s.admitsContainer .read c (offsetAddr s.operands) = true →
    ∃ t u : State, exec .cwrite s = .next t ∧ exec .cread t = .next u ∧
      u.resultRaw.toNat = s.operands.rawIn.toNat % 2 ^ (8 * c.nbytes) ∧ u.mem = t.mem

/-- From R131: with its checks passed, a pixel's container lies inside the surface. -/
def Obligations.PixelContainerInsideSurface : Prop :=
  ∀ (o : OperandRegs) (c : Container), o.pixelOk c = true →
    o.y * (o.virtW * c.nbytes) + o.x * c.nbytes + c.nbytes ≤ o.virtW * c.nbytes * o.virtH ∧
      pixelAddr o c = BitVec.ofNat 32 (o.fbBase.toNat + (o.y * (o.virtW * c.nbytes) + o.x * c.nbytes))

/-- From R71: no command, run whole or one access at a time, changes a byte of memory outside the surface. -/
def Obligations.WritesStayInsideSurface : Prop :=
  ∀ (s t : State) (x : Word), s.mem.wf = true → ((∃ i, exec i s = .next t) ∨ t = s.tick) →
    readByte t.mem x ≠ readByte s.mem x →
    ∃ c : Container, containerOf s.operands.bpp = some c ∧
      (x - s.operands.fbBase).toNat < s.operands.virtW * c.nbytes * s.operands.virtH

/-! ## Palette commands -/

/-- R173, R174, R176: PAL_BUILD, the word 0x00000030, installs the three regions, the markers over the gray ramp where they
overlap, keeps every other entry, completes, and changes nothing else. -/
def Obligations.PalBuildInstallsRegions : Prop :=
  encode .palBuild = 0x00000030#32 ∧ ∀ s : State, s.atStart = true →
    ∃ t : State, exec .palBuild s = .next t ∧ t = { s with pal := t.pal, engine := .idle } ∧
      ∀ i : Nat, i < 256 →
        findKey i t.pal =
          if i = 210 then some ⟨0xFFFF, 0xFFFF, 0xFFFF⟩
          else if i = 211 then some ⟨0, 0, 0⟩
          else if i = 212 then
            some ⟨BitVec.ofNat 16 (s.operands.markerRgb.toNat / 2 ^ 16 % 2 ^ 8 * 2 ^ 8),
              BitVec.ofNat 16 (s.operands.markerRgb.toNat / 2 ^ 8 % 2 ^ 8 * 2 ^ 8),
              BitVec.ofNat 16 (s.operands.markerRgb.toNat % 2 ^ 8 * 2 ^ 8)⟩
          else if 200 ≤ i ∧ i ≤ 200 + min s.operands.redLen (min s.operands.greenLen s.operands.blueLen) then
            some (grayRamp (min s.operands.redLen (min s.operands.greenLen s.operands.blueLen) + 1) (i - 200))
          else if 100 ≤ i ∧ i ≤ 102 + s.operands.redLen + s.operands.greenLen + s.operands.blueLen then
            some (colorRamp s.operands.redLen s.operands.greenLen s.operands.blueLen (i - 100))
          else findKey i s.pal

/-- From R171: the colour ramp is black, then a ramp and a marker for each channel; every ramp value is one bit, and each is
twice the one before it, the last being `1 << 14`. -/
def Obligations.ColourRampIsThermometer : Prop :=
  ∀ r g b : Nat, r ≤ 15 → g ≤ 15 → b ≤ 15 →
    colorRamp r g b 0 = ⟨0, 0, 0⟩ ∧ (0 < r → colorRamp r g b r = ⟨0xFFFF, 0, 0⟩) ∧
      colorRamp r g b (r + 1 + g) = ⟨0, 0xFFFF, 0⟩ ∧ colorRamp r g b (r + g + b + 2) = ⟨0, 0, 0xFFFF⟩ ∧
      (∀ k, 1 ≤ k → k < r → colorRamp r g b k = ⟨BitVec.ofNat 16 (2 ^ (14 - (r - 1 - k))), 0, 0⟩) ∧
      (∀ k, r + 1 ≤ k → k < r + 1 + g → colorRamp r g b k = ⟨0, BitVec.ofNat 16 (2 ^ (14 - (r + g - k))), 0⟩) ∧
      (∀ k, r + g + 2 ≤ k → k < r + g + 2 + b →
        colorRamp r g b k = ⟨0, 0, BitVec.ofNat 16 (2 ^ (14 - (r + g + 1 + b - k)))⟩)

/-- From R172: the gray ramp sets the three channels equally to one bit, the last ramp entry to `1 << 14`, and ends in white. -/
def Obligations.GrayRampIsThermometer : Prop :=
  ∀ n i : Nat, 1 ≤ n → n ≤ 16 → i < n →
    grayRamp n i =
      if i + 1 = n then ⟨0xFFFF, 0xFFFF, 0xFFFF⟩
      else ⟨BitVec.ofNat 16 (2 ^ (14 - (n - 2 - i))), BitVec.ofNat 16 (2 ^ (14 - (n - 2 - i))),
        BitVec.ofNat 16 (2 ^ (14 - (n - 2 - i)))⟩

/-- R177: PAL_WRITE, the word 0x00000031, installs the triple of PAL_RG and PAL_B at index PAL_IDX[7:0], keeps every other
entry, completes, and changes nothing else. -/
def Obligations.PalWriteInstallsEntry : Prop :=
  encode .palWrite = 0x00000031#32 ∧ ∀ s : State, s.atStart = true →
    ∃ t : State, exec .palWrite s = .next t ∧ t = { s with pal := t.pal, engine := .idle } ∧
      ∀ i : Nat,
        findKey i t.pal =
          if i = s.operands.palIdx.toNat % 256 then
            some ⟨BitVec.ofNat 16 s.operands.palRg.toNat, BitVec.ofNat 16 (s.operands.palRg.toNat / 2 ^ 16),
              BitVec.ofNat 16 s.operands.palB.toNat⟩
          else findKey i s.pal

/-- From R178: PAL_READ of an entry written since reset writes it to PAL_RG and PAL_B, completes, and changes nothing else. -/
def Obligations.PalReadReturnsEntry : Prop :=
  ∀ (s : State) (e : PalEntry), findKey (s.operands.palIdx.toNat % 256) s.pal = some e →
    exec .palRead s =
      .next { s with
        rw := { s.rw with
          palRg := BitVec.ofNat 32 (e.green.toNat * 2 ^ 16 + e.red.toNat)
          palB := BitVec.ofNat 32 e.blue.toNat }
        engine := .idle }

/-- From R178, R232: PAL_READ of an entry not written since reset writes some triple to PAL_RG and PAL_B, completes, and changes
nothing else of the block. The triple is a free value (log 5): nothing is said of it but its widths. -/
def Obligations.PalReadOfUnwrittenEntryCompletes : Prop :=
  ∀ s : State, findKey (s.operands.palIdx.toNat % 256) s.pal = none →
    ∃ e : PalEntry, exec .palRead s =
      .next { s with
        rw := { s.rw with
          palRg := BitVec.ofNat 32 (e.green.toNat * 2 ^ 16 + e.red.toNat)
          palB := BitVec.ofNat 32 e.blue.toNat }
        draws := s.draws + 3
        engine := .idle }

/-- From R177, R178: PAL_READ gives back what PAL_WRITE installed, whatever PAL_RG and PAL_B hold in between. -/
def Obligations.PalReadReturnsPalWritten : Prop :=
  ∀ (s : State) (rg b : Word), s.sound = true → s.atStart = true →
    ∃ t u : State, exec .palWrite s = .next t ∧
      exec .palRead { t with rw := { t.rw with palRg := rg, palB := b } } = .next u ∧
      u.rw = { s.rw with palB := BitVec.ofNat 32 (s.rw.palB.toNat % 2 ^ 16) } ∧ u.pal = t.pal

/-! ## Faults -/

/-- From R201 to R204: a command whose checks do not all pass takes the fault entry with the first fault of its table; a command
whose checks pass records no fault. -/
def Obligations.FaultsInPriorityOrder : Prop :=
  ∀ (i : Instr) (s : State), s.commandIs i = true →
    match firstFault (faultTable i s.operands) with
    | some code => exec i s = .next (faultState s code (opcode i))
    | none => ∃ t : State, exec i s = .next t ∧ t.status = s.status

/-- From R204, R205: a command that changes STATUS.ERR, ERRCODE or ERROP has changed nothing else but BUSY. -/
def Obligations.FaultsArePrecise : Prop :=
  ∀ (i : Instr) (s t : State), exec i s = .next t → t.status ≠ s.status →
    ∃ (code : BitVec 4) (op : BitVec 8), 2 ≤ code.toNat ∧ code.toNat ≤ 11 ∧ t = faultState s code op

/-- R207, R208: from a state with a fault recorded, and until a reset comes, no command runs: the engine stays Idle and ERR,
ERRCODE, ERROP, the result registers and the palette RAM keep their values, whatever the host does. -/
def Obligations.FaultStaysUntilReset : Prop :=
  ∀ (n : Nat) (s t : State), s.sound = true → s.status.err = true → Event.reset ∉ s.agenda →
    Host.Core.run Sys2Proof.core n s = .next t →
    t.status.err = true ∧ t.status.errcode = s.status.errcode ∧ t.status.errop = s.status.errop ∧ t.engine = .idle ∧
      t.resultRaw = s.resultRaw ∧ t.resultRgb = s.resultRgb ∧ t.pal = s.pal

/-! ## The engine's progress -/

/-- From R61 and R66, with the admitted accesses as log 4 has them and the engine's account of its progress (log 2): at its
start, a command whose checks pass ends with BUSY = 0 exactly when the memory admits every access; else it stands before its
first access that the memory does not admit, with BUSY = 1, the registers, STATUS and the palette as before, and in memory
exactly the bytes of its earlier accesses written. -/
def Obligations.StuckAtFirstDeniedAccess : Prop :=
  ∀ (i : Instr) (s t : State) (p : Plan), s.atStart = true → planOf i s.operands = .ok p → exec i s = .next t →
    (t.busy = false ↔ s.admitsAll p.accesses = true) ∧
      (∀ f : Flight, t.engine = .busy f →
        s.admitsAll (p.accesses.take f.issued) = true ∧ s.admitsAll (p.accesses.drop f.issued |>.take 1) = false ∧
          t.rw = s.rw ∧ t.resultRaw = s.resultRaw ∧ t.resultRgb = s.resultRgb ∧ t.status = s.status ∧ t.pal = s.pal ∧
          (s.mem.wf = true → ∀ x : Word, readByte t.mem x = byteAfter (p.accesses.take f.issued) s.mem x) ∧
          (s.mem.wf = true → ∀ c addr raw, p.accesses = containerWrite c addr raw →
            ∀ x : Word, readByte t.mem x =
              if (x - addr).toNat < f.issued then raw.extractLsb' (8 * (x - addr).toNat) 8 else readByte s.mem x))

/-- From R61 (log 17): a stuck command has no further effect: another turn of the engine, whole or of one access, changes
nothing. -/
def Obligations.StuckCommandHasNoFurtherEffect : Prop :=
  ∀ (i : Instr) (s t : State), s.commandIs i = true → exec i s = .next t → t.busy = true →
    engineTurn t = .next t ∧ t.tick = t

/-- From 93_implementation_defined.md row 8 and R74, by the model's choice of both ways to run a command (log 2): running a
command in one step is the same as running it one access at a time, from wherever it stands. -/
def Obligations.WholeCommandIsAccessesInTurn : Prop :=
  ∀ (s t : State) (f : Flight) (i : Instr), s.engine = .busy f → decode f.cmd = .ok i → exec i s = .next t →
    ∃ n : Nat, State.tick^[n] s = t

/-- From R25, R27, R82 and decision D31, the writes standing in the agenda that is the model's own (log 1): register writes that
the host makes while a command runs do not change what the command does; they can only set or clear OVR. -/
def Obligations.RegisterWritesDoNotDisturbCommand : Prop :=
  ∀ (s t : State) (f : Flight) (i : Instr) (writes : List (Nat × Word)), s.engine = .busy f → decode f.cmd = .ok i →
    (∀ p ∈ writes, p.1 % 4 = 0 ∧ p.1 < 0x100) → exec i { s with agenda := [] } = .next t →
    ∃ b : Bool, Host.Core.run Sys2Proof.core (writes.length + 1)
        { s with agenda := writes.map (fun p => Event.regWrite p.1 4 p.2) } =
      .next { t with status := { t.status with ovr := b } }

/-- From R66, R72, R231, R234, with the engine moved one access at a time (log 2) and the memory keeping its bytes across the
reset, which is the model's choice (log 14): a reset that comes after `k` accesses of a 24-bit PUTRAW leaves the first `k` bytes
of the container written and no other byte. -/
def Obligations.ResetLeavesCompletedBytes : Prop :=
  ∀ (s : State) (f : Flight) (k : Nat), s.mem.wf = true → s.engine = .busy f → f.cmd = 0x00000013#32 → s.atStart = true →
    f.ops.pixelOk .c24 = true → s.admitsContainer .write .c24 (pixelAddr f.ops .c24) = true → k ≤ 3 →
    ∀ x : Word, readByte (State.resetBlock (State.tick^[k] s)).mem x =
      if (x - pixelAddr f.ops .c24).toNat < k then
        f.ops.rawIn.extractLsb' (8 * (x - pixelAddr f.ops .c24).toNat) 8
      else readByte s.mem x

/-! ## Races -/

/-- From R72, R76 (log 7, log 19): while BUSY = 1, a host read of any width that meets a write of the running command returns in
each byte of such a write the old or the new value, one choice for each access of the command, and the memory's byte elsewhere;
it changes nothing but the model's own account of reads. The first part says so of every state, the old value of a completed
write being the byte that the flight remembers; the second says that after any number of accesses of the engine alone the old
value is the byte before the command and the new one the byte that the command writes. -/
def Obligations.RacingReadReturnsOldOrNew : Prop :=
  (∀ (s : State) (f : Flight) (x : Word) (w : Width), s.engine = .busy f → f.writeRace x w.bytes = true →
    ∃ (d : Word) (sees : Nat → Bool),
      hostEvent (.fbRead x w) s = .next { s with hostData := d, draws := s.draws + f.accesses.length } ∧
        hasBytes d w.bytes (fun j =>
          match writeCovering (x + BitVec.ofNat 32 j) 0 f.accesses with
          | none => readByte s.mem (x + BitVec.ofNat 32 j)
          | some (k, v) =>
            if k < f.issued then
              if sees k then readByte s.mem (x + BitVec.ofNat 32 j)
              else f.earlierByte s.mem f.old.length (x + BitVec.ofNat 32 j)
            else if sees k then v else readByte s.mem (x + BitVec.ofNat 32 j))) ∧
  (∀ (s : State) (f g : Flight) (n : Nat) (x : Word) (w : Width), s.mem.wf = true → s.engine = .busy f → s.atStart = true →
    (State.tick^[n] s).engine = .busy g → f.writeRace x w.bytes = true →
    ∃ (d : Word) (sees : Nat → Bool),
      hostEvent (.fbRead x w) (State.tick^[n] s) =
          .next { State.tick^[n] s with hostData := d, draws := s.draws + f.accesses.length } ∧
        hasBytes d w.bytes (fun j =>
          match writeCovering (x + BitVec.ofNat 32 j) 0 f.accesses with
          | none => readByte s.mem (x + BitVec.ofNat 32 j)
          | some (k, v) => if sees k then v else readByte s.mem (x + BitVec.ofNat 32 j)))

/-- From R76 (log 7): while BUSY = 1, a one-byte host write to a byte that the running command has already written leaves that
byte with the command's value or the host's, and every other byte as it was. -/
def Obligations.RacingWriteLeavesEitherByte : Prop :=
  ∀ (s t : State) (f : Flight) (x : Word) (k : Nat) (v : Byte) (h : Word), s.mem.wf = true → s.engine = .busy f →
    writeCovering x 0 f.accesses = some (k, v) → k < f.issued →
    hostEvent (.fbWrite x .b1 h) s = .next t →
    (readByte t.mem x = v ∨ readByte t.mem x = h.extractLsb' 0 8) ∧
      (∀ y : Word, y ≠ x → readByte t.mem y = readByte s.mem y) ∧ t = { s with mem := t.mem, draws := t.draws }

/-- From R76 (log 7): a GETPIX of an 8-bit container that a one-byte host write raced with returns the old or the written byte. -/
def Obligations.RacedGetpixReturnsEitherByte : Prop :=
  ∀ (s t : State) (f : Flight) (h : Word), s.mem.wf = true → s.engine = .busy f → f.cmd = 0x00000014#32 →
    s.atStart = true → f.ops.pixelOk .c8 = true → s.admitsContainer .read .c8 (pixelAddr f.ops .c8) = true →
    hostEvent (.fbWrite (pixelAddr f.ops .c8) .b1 h) s = .next t →
    ∃ u : State, exec .getpix t = .next u ∧ u.engine = .idle ∧ u.mem = t.mem ∧
      (u.resultRaw = (readByte s.mem (pixelAddr f.ops .c8)).setWidth 32 ∨ u.resultRaw = (h.extractLsb' 0 8).setWidth 32)

/-! ## The register window -/

/-- From R23: the register map, as offsets: each register has its own, and a reserved offset has no register. -/
def Obligations.RegisterMapOffsets : Prop :=
  (∀ (off : Nat) (r : RegName), regAt off = some r ↔ off = regOffset r) ∧
    regOffset .status = 0x00 ∧ regOffset .cmd = 0x04 ∧ regOffset .fbBase = 0x08 ∧ regOffset .fmt = 0x0C ∧
    regOffset .visSize = 0x10 ∧ regOffset .virtSize = 0x14 ∧ regOffset .rfield = 0x18 ∧ regOffset .gfield = 0x1C ∧
    regOffset .bfield = 0x20 ∧ regOffset .color = 0x24 ∧ regOffset .xy = 0x28 ∧ regOffset .rawIn = 0x2C ∧
    regOffset .offset = 0x30 ∧ regOffset .resultRaw = 0x34 ∧ regOffset .resultRgb = 0x38 ∧ regOffset .markerRgb = 0x3C ∧
    regOffset .palIdx = 0x40 ∧ regOffset .palRg = 0x44 ∧ regOffset .palB = 0x48 ∧ ∀ off, 0x4C ≤ off → regAt off = none

/-- From R6, R22 (log 10): REG_BASE is aligned to 0x100, and the window's bytes are REG_BASE + off for off below 0x100. -/
def Obligations.WindowOffsetFromBase : Prop :=
  Config.regBase.toNat % 0x100 = 0 ∧
    ∀ off : Nat, off < 0x100 → windowOffset (Config.regBase + BitVec.ofNat 32 off) = off

/-- From R80, with accesses named by their offset (log 10, log 11): a register access is in the interface exactly when it is 32
bits wide, at an offset that is a multiple of 4 below REG_SPAN; any other is refused. -/
def Obligations.NarrowRegisterAccessRefused : Prop :=
  ∀ (s : State) (off size : Nat) (v : Word),
    ((∃ t, hostEvent (.regWrite off size v) s = .next t) ↔ size = 4 ∧ off % 4 = 0 ∧ off < 0x100) ∧
      ((∃ t, hostEvent (.regRead off size) s = .next t) ↔ size = 4 ∧ off % 4 = 0 ∧ off < 0x100) ∧
      (¬ (size = 4 ∧ off % 4 = 0 ∧ off < 0x100) →
        (∃ r, hostEvent (.regWrite off size v) s = .refused r) ∧ ∃ r, hostEvent (.regRead off size) s = .refused r)

/-- From R22: a reserved offset reads 0 and ignores writes, and a write of a read-only register is ignored, whatever the engine
does. -/
def Obligations.ReservedOffsetsInert : Prop :=
  ∀ (s : State) (v : Word), hostWrites s .resultRaw v = .next s ∧ hostWrites s .resultRgb v = .next s ∧
    ∀ off : Nat, 0x4C ≤ off → off ≤ 0xFC → off % 4 = 0 →
      hostEvent (.regWrite off 4 v) s = .next s ∧ hostEvent (.regRead off 4) s = .next { s with hostData := 0 }

/-- From R22, R23, R206: with BUSY = 0, a fault recorded or not, a write of an RW register stores the bits that are not reserved
and changes no other register; a read then returns them. -/
def Obligations.RegisterWriteThenRead : Prop :=
  ∀ (s : State) (p : RegName × Word) (v : Word), p ∈ rwRegisters → s.busy = false →
    ∃ t : State, hostWrites s p.1 v = .next t ∧ t = { s with rw := t.rw } ∧
      hostReads t p.1 = .next { t with hostData := v &&& p.2 } ∧
      ∀ r : RegName, r ≠ p.1 → t.registerValue r = s.registerValue r

/-- From R27: while BUSY = 1, a write of CMD or of an RW register is dropped and sets OVR; a write of a result register or of a
reserved offset is ignored and does not set it. -/
def Obligations.BusyWriteDroppedSetsOvr : Prop :=
  ∀ (s : State) (v : Word), s.busy = true → s.status.err = false →
    hostWrites s .cmd v = .next { s with status := { s.status with ovr := true } } ∧
      (∀ p ∈ rwRegisters, hostWrites s p.1 v = .next { s with status := { s.status with ovr := true } }) ∧
      hostWrites s .resultRaw v = .next s ∧ hostWrites s .resultRgb v = .next s ∧
      ∀ off, 0x4C ≤ off → off ≤ 0xFC → off % 4 = 0 → hostEvent (.regWrite off 4 v) s = .next s

/-- From R24: the value of STATUS, and what a write of it does, whether BUSY is 0 or 1. -/
def Obligations.StatusFieldsAndWrite : Prop :=
  ∀ (s : State) (v : Word),
    s.statusWord.toNat = s.busy.toNat + 2 * s.status.err.toNat + 4 * s.status.ovr.toNat +
        2 ^ 4 * s.status.errcode.toNat + 2 ^ 8 * s.status.errop.toNat ∧
      hostWrites s .status v =
        .next (if v.toNat / 4 % 2 = 1 then { s with status := { s.status with ovr := false } } else s)

/-- From R81, R82, R206: a write of CMD is ignored while ERR = 1, dropped with OVR while BUSY = 1, and else sets BUSY and takes
the snapshot of the registers. -/
def Obligations.CommandWriteStartsCommand : Prop :=
  ∀ (s : State) (w : Word),
    (s.status.err = true → hostWrites s .cmd w = .next s) ∧
      (s.status.err = false → s.busy = true →
        hostWrites s .cmd w = .next { s with status := { s.status with ovr := true } }) ∧
      (s.status.err = false → s.busy = false →
        ∃ t : State, hostWrites s .cmd w = .next t ∧ t = { s with engine := t.engine } ∧ t.busy = true ∧
          t.atStart = true ∧ t.operands = s.rw ∧ ∀ i, w = encode i → t.commandIs i = true)

/-- From R23, R28, R37, R38, R73: a host read of a register returns its value (CMD reads 0, and with BUSY = 0 RESULT_RAW and
RESULT_RGB read the results) and changes nothing of the block, but for the result registers while BUSY = 1. -/
def Obligations.RegisterReadHasNoSideEffect : Prop :=
  (∀ (s : State) (r : RegName),
    (s.busy = false ∨ r ∉ [RegName.resultRaw, .resultRgb, .palRg, .palB]) →
    hostReads s r = .next { s with hostData := if r = .cmd then 0 else s.registerValue r }) ∧
  (∀ s : State, s.busy = false →
    hostReads s .resultRaw = .next { s with hostData := s.resultRaw } ∧
      hostReads s .resultRgb = .next { s with hostData := s.resultRgb })

/-- From R237 and row 3 of 93_implementation_defined.md: a read of RESULT_RAW, RESULT_RGB, PAL_RG or PAL_B while BUSY = 1
returns some value and changes nothing of the block. The value is a free value (log 6). That PAL_RG and PAL_B are unspecified
under every command, not under PAL_READ alone, is the model's wider reading (log 16). -/
def Obligations.BusyResultReadIsUnspecified : Prop :=
  ∀ (s : State) (r : RegName), s.busy = true → r ∈ [RegName.resultRaw, .resultRgb, .palRg, .palB] →
    ∃ w : Word, hostReads s r = .next { s with hostData := w, draws := s.draws + 1 }

/-- From R87: POLL ends with the read of STATUS, BUSY reading 0. That a POLL leaves the turn to the engine while BUSY = 1,
instead of reading STATUS again and again, is the model's choice (log 1). -/
def Obligations.PollWaitsForEngine : Prop :=
  ∀ (s : State) (rest : List Event), s.agenda = .poll :: rest →
    (s.busy = true → step s = engineTurn s) ∧
      (s.busy = false → ∃ t : State, step s = .next t ∧
        t = { s with agenda := rest, hostData := s.statusWord } ∧ t.hostData.getLsbD 0 = false)

/-- From R86, R87: each pseudo-instruction, with its operands in range and BUSY = 0, is one register write that sets the fields
it names to its operands; RUN is the command's write and then POLL. -/
def Obligations.NotationSetsFields : Prop :=
  ∀ s : State, s.busy = false →
    (∀ x y, HostLine.wellFormed (.setXY x y) = true →
      ∃ t, lineRuns (.setXY x y) s t ∧ t.rw.x = x ∧ t.rw.y = y) ∧
    (∀ r g b, HostLine.wellFormed (.setRGB r g b) = true →
      ∃ t, lineRuns (.setRGB r g b) s t ∧ t.rw.colorR.toNat = r ∧ t.rw.colorG.toNat = g ∧ t.rw.colorB.toNat = b) ∧
    (∀ i, HostLine.wellFormed (.setIdx i) = true → ∃ t, lineRuns (.setIdx i) s t ∧ t.rw.colorIdx.toNat = i) ∧
    (∀ c off len msb, HostLine.wellFormed (.field c off len msb) = true →
      ∃ t, lineRuns (.field c off len msb) s t ∧
        channelOf t.rw c = ⟨BitVec.ofNat 5 off, BitVec.ofNat 4 len, decide (msb = 1)⟩) ∧
    (∀ w h, HostLine.wellFormed (.size .visible w h) = true →
      ∃ t, lineRuns (.size .visible w h) s t ∧ t.rw.visW = w ∧ t.rw.visH = h) ∧
    (∀ w h, HostLine.wellFormed (.size .virtual w h) = true →
      ∃ t, lineRuns (.size .virtual w h) s t ∧ t.rw.virtW = w ∧ t.rw.virtH = h) ∧
    (∀ bpp indexed, HostLine.wellFormed (.format bpp indexed) = true →
      ∃ t, lineRuns (.format bpp indexed) s t ∧ t.rw.bpp.toNat = bpp ∧ t.rw.indexed = decide (indexed = 1)) ∧
    ∀ i, expandLine (.run i) = [.regWrite 0x04 4 (encode i), .poll]

/-! ## Reset -/

/-- From R230, R231: reset leaves every register 0, STATUS 0 and the engine Idle. That a palette entry is unspecified by not
being listed is the model's choice (log 5), and so is that the memory, the admitted accesses and the model's own fields stay as
they are (log 14). -/
def Obligations.ResetValues : Prop :=
  ∀ s : State, ∃ t : State, hostEvent .reset s = .next t ∧
    (∀ r : RegName, t.registerValue r = 0) ∧ t.engine = .idle ∧ (∀ i, findKey i t.pal = none) ∧
      t = { s with rw := t.rw, resultRaw := 0, resultRgb := 0, status := t.status, engine := .idle, pal := t.pal }

/-- From R231, R235 and vector F4: right after reset every command that needs a container, and ENC_PAL, faults E_BPP. -/
def Obligations.UnconfiguredContainerCommandFaults : Prop :=
  ∀ i ∈ [Instr.encPal, .setpixRep, .setpixCol, .setpixPal, .putraw, .getpix, .grabpix, .cwrite, .cread],
    step (State.reset.withFetchWord 32 (encode i).toNat) =
      .next (faultState (State.reset.withFetchWord 32 (encode i).toNat) 2 (opcode i))

/-! ## The invariant -/

/-- The state after reset meets the invariant that every step keeps; its fields without a reset value in the spec stand at the
values of log 1, 3, 4, 8 and 9. -/
def Obligations.ResetIsSound : Prop := State.reset.sound = true

/-- Every step from a sound state leads to a sound state: the memory and the palette RAM keep their canonical forms, reserved
bits read 0 (R22, R38), STATUS records nothing or a fault of codes 1 to 11 (R24, R201), and a running command has no fault
recorded and a snapshot equal to the registers (R82, R206). -/
def Obligations.EveryStepKeepsSound : Prop :=
  ∀ s t : State, s.sound = true → step s = .next t → t.sound = true

/-! ## Host accesses that do not race -/

/-- From R62, R75, with the host's accesses in the form of log 13: a host read of the framebuffer from Idle, or one that meets
no write of the running command, returns the memory's bytes; a host write from Idle, or one that meets no access of the running
command, stores exactly its bytes; neither changes anything else. -/
def Obligations.HostAccessesWithoutRace : Prop :=
  ∀ (s : State) (a : Word) (w : Width), s.mem.wf = true →
    ((∀ f, s.engine = .busy f → f.writeRace a w.bytes = false) →
      ∃ d : Word, hostEvent (.fbRead a w) s = .next { s with hostData := d } ∧
        hasBytes d w.bytes (fun j => readByte s.mem (a + BitVec.ofNat 32 j))) ∧
    ((∀ f, s.engine = .busy f → f.writeRace a w.bytes = false ∧ f.readRace a w.bytes = false) →
      ∀ v : Word, ∃ t : State, hostEvent (.fbWrite a w v) s = .next t ∧ t = { s with mem := t.mem } ∧
        ∀ x : Word, readByte t.mem x =
          if (x - a).toNat < w.bytes then v.extractLsb' (8 * (x - a).toNat) 8 else readByte s.mem x)
end

