-- ==== Sys2Proof/Laws/Store.lean ====
section
/-! SUPPORT. Laws of the keyed lists that the memory and the palette RAM are. -/

namespace Sys2Proof.Machine

variable {α : Type}

/-- Reading a key after listing a value under a key. -/
theorem findKey_insertKey (k k' : Nat) (v : α) (l : List (Nat × α)) :
    findKey k' (insertKey k v l) = if k' = k then some v else findKey k' l := by
  induction l with
  | nil => simp [insertKey, findKey]
  | cons e t ih =>
    obtain ⟨a, b⟩ := e
    simp only [insertKey]
    split
    · simp [findKey]
    · split
      · subst_vars
        simp only [findKey]
        split <;> simp_all
      · rename_i hka
        simp only [findKey, ih]
        by_cases hk : k' = a
        · simp [hk, if_neg (fun hh : a = k => hka hh.symm)]
        · simp [hk]

/-- A key below every key of a list is not in it. -/
theorem findKey_none_of_lt (k : Nat) (l : List (Nat × α)) (h : ∀ e ∈ l, k < e.1) : findKey k l = none := by
  induction l with
  | nil => rfl
  | cons e t ih =>
    have h1 := h e (by simp)
    have h2 : k ≠ e.1 := by omega
    simp [findKey, h2, ih (fun x hx => h x (by simp [hx]))]

/-- `keysRise` of a list with a head. -/
theorem keysRise_cons (e : Nat × α) (t : List (Nat × α)) :
    keysRise (e :: t) = true ↔ (∀ x ∈ t, e.1 < x.1) ∧ keysRise t = true := by
  simp [keysRise, List.all_eq_true]

/-- Reading a key after removing a key from a rising list. -/
theorem findKey_eraseKey (k k' : Nat) (l : List (Nat × α)) (h : keysRise l = true) :
    findKey k' (eraseKey k l) = if k' = k then none else findKey k' l := by
  induction l with
  | nil => simp [eraseKey, findKey]
  | cons e t ih =>
    obtain ⟨a, b⟩ := e
    obtain ⟨hlt, ht⟩ := (keysRise_cons _ _).1 h
    simp only [eraseKey]
    split
    · subst_vars
      split
      · subst_vars
        exact findKey_none_of_lt _ _ hlt
      · simp_all [findKey]
    · rename_i hka
      simp only [findKey, ih ht]
      by_cases hk : k' = a
      · simp [hk, if_neg (fun hh : a = k => hka hh.symm)]
      · simp [hk]

/-- The entries after listing a value: the new one and old ones. -/
theorem mem_insertKey (k : Nat) (v : α) (l : List (Nat × α)) (e : Nat × α) (h : e ∈ insertKey k v l) :
    e = (k, v) ∨ e ∈ l := by
  induction l with
  | nil => simp_all [insertKey]
  | cons x t ih =>
    simp only [insertKey] at h
    split at h
    · simpa using h
    · split at h
      · simp only [List.mem_cons] at h ⊢
        tauto
      · simp only [List.mem_cons] at h ⊢
        rcases h with h | h
        · simp [h]
        · rcases ih h with h | h <;> simp [h]

/-- The entries after removing a key are old ones. -/
theorem mem_eraseKey (k : Nat) (l : List (Nat × α)) (e : Nat × α) (h : e ∈ eraseKey k l) : e ∈ l := by
  induction l with
  | nil => simp_all [eraseKey]
  | cons x t ih =>
    simp only [eraseKey] at h
    split at h
    · simp [h]
    · simp only [List.mem_cons] at h ⊢
      rcases h with h | h
      · simp [h]
      · simp [ih h]

/-- Listing a value keeps the keys rising. -/
theorem keysRise_insertKey (k : Nat) (v : α) (l : List (Nat × α)) (h : keysRise l = true) :
    keysRise (insertKey k v l) = true := by
  induction l with
  | nil => simp [insertKey, keysRise]
  | cons x t ih =>
    obtain ⟨a, b⟩ := x
    obtain ⟨hlt, ht⟩ := (keysRise_cons _ _).1 h
    simp only [insertKey]
    split
    · rename_i hk
      refine (keysRise_cons _ _).2 ⟨fun x hx => ?_, h⟩
      rcases List.mem_cons.1 hx with rfl | hx
      · exact hk
      · exact hk.trans (hlt x hx)
    · split
      · subst_vars
        exact (keysRise_cons _ _).2 ⟨hlt, ht⟩
      · refine (keysRise_cons _ _).2 ⟨fun x hx => ?_, ih ht⟩
        rcases mem_insertKey _ _ _ _ hx with rfl | hx
        · show a < k
          omega
        · exact hlt x hx

/-- Removing a key keeps the keys rising. -/
theorem keysRise_eraseKey (k : Nat) (l : List (Nat × α)) (h : keysRise l = true) :
    keysRise (eraseKey k l) = true := by
  induction l with
  | nil => simp [eraseKey, keysRise]
  | cons x t ih =>
    obtain ⟨a, b⟩ := x
    obtain ⟨hlt, ht⟩ := (keysRise_cons _ _).1 h
    simp only [eraseKey]
    split
    · exact ht
    · exact (keysRise_cons _ _).2 ⟨fun x hx => hlt x (mem_eraseKey _ _ _ hx), ih ht⟩

/-- Rising lists that list the same values are equal. -/
theorem eq_of_findKey_eq (l l' : List (Nat × α)) (h : keysRise l = true) (h' : keysRise l' = true)
    (same : ∀ k, findKey k l = findKey k l') : l = l' := by
  induction l generalizing l' with
  | nil =>
    cases l' with
    | nil => rfl
    | cons e' t' =>
      have := same e'.1
      simp [findKey] at this
  | cons e t ih =>
    obtain ⟨hlt, ht⟩ := (keysRise_cons _ _).1 h
    cases l' with
    | nil =>
      have := same e.1
      simp [findKey] at this
    | cons e' t' =>
      obtain ⟨hlt', ht'⟩ := (keysRise_cons _ _).1 h'
      have hne : e.1 = e'.1 := by
        by_contra hne
        have h1 := same e.1
        have h2 := same e'.1
        rcases Nat.lt_or_ge e.1 e'.1 with hl | hl
        · rw [findKey_none_of_lt e.1 (e' :: t')] at h1
          · simp [findKey] at h1
          · intro x hx
            rcases List.mem_cons.1 hx with rfl | hx
            · exact hl
            · exact hl.trans (hlt' x hx)
        · have hl : e'.1 < e.1 := by omega
          rw [findKey_none_of_lt e'.1 (e :: t)] at h2
          · simp [findKey] at h2
          · intro x hx
            rcases List.mem_cons.1 hx with rfl | hx
            · exact hl
            · exact hl.trans (hlt x hx)
      have hv : e = e' := by
        have := same e.1
        simp [findKey, hne] at this
        exact Prod.ext hne this
      subst hv
      congr 1
      refine ih t' ht ht' (fun k => ?_)
      have := same k
      simp only [findKey] at this
      by_cases hk : k = e.1
      · subst hk
        rw [findKey_none_of_lt _ _ hlt, findKey_none_of_lt _ _ hlt']
      · simpa [hk] using this

end Sys2Proof.Machine
end

