-- ==== Sys2Proof/Laws/Memory.lean ====
section
/-! SUPPORT. Laws of the memory and the palette RAM: reading after writing, and the canonical forms. -/

namespace Sys2Proof.Machine

/-- The canonical form, entry by entry. -/
theorem Memory.wf_iff (m : Memory) :
    Memory.wf m = true ↔ keysRise m = true ∧ ∀ c ∈ m, c.1 < 2 ^ 32 ∧ c.2 ≠ unlistedByte := by
  simp [Memory.wf, List.all_eq_true]

/-- The palette's canonical form, entry by entry. -/
theorem Palette.wf_iff (p : Palette) :
    Palette.wf p = true ↔ keysRise p = true ∧ ∀ e ∈ p, e.1 < Config.paletteSize := by
  simp [Palette.wf, List.all_eq_true]

/-- A byte write keeps the canonical form. -/
theorem writeByte_wf (m : Memory) (a : Word) (v : Byte) (h : Memory.wf m = true) :
    Memory.wf (writeByte m a v) = true := by
  rw [Memory.wf_iff] at h ⊢
  unfold writeByte
  split
  · exact ⟨keysRise_eraseKey _ _ h.1, fun c hc => h.2 c (mem_eraseKey _ _ _ hc)⟩
  · refine ⟨keysRise_insertKey _ _ _ h.1, fun c hc => ?_⟩
    rcases mem_insertKey _ _ _ _ hc with rfl | hc
    · exact ⟨a.isLt, by assumption⟩
    · exact h.2 c hc

/-- A write access keeps the canonical form. -/
theorem writeBytes_wf (m : Memory) (a : Word) (n : Nat) (v : Word) (h : Memory.wf m = true) :
    Memory.wf (writeBytes m a n v) = true := by
  induction n generalizing m a v with
  | zero => exact h
  | succ n ih => exact ih _ _ _ (writeByte_wf _ _ _ h)

/-- A palette write keeps the canonical form. -/
theorem writePalette_wf (p : Palette) (i : BitVec 8) (e : PalEntry) (h : Palette.wf p = true) :
    Palette.wf (writePalette p i e) = true := by
  rw [Palette.wf_iff] at h ⊢
  refine ⟨keysRise_insertKey _ _ _ h.1, fun c hc => ?_⟩
  rcases mem_insertKey _ _ _ _ hc with rfl | hc
  · exact i.isLt
  · exact h.2 c hc

/-- Reading a byte after writing a byte of a canonical memory. -/
theorem readByte_writeByte (m : Memory) (a x : Word) (v : Byte) (h : Memory.wf m = true) :
    readByte (writeByte m a v) x = if x = a then v else readByte m x := by
  have hk := ((Memory.wf_iff m).1 h).1
  unfold readByte writeByte
  have hx : x.toNat = a.toNat ↔ x = a := BitVec.toNat_inj
  split
  · rw [findKey_eraseKey _ _ _ hk]
    by_cases hxa : x = a
    · simp [*]
    · simp [hx, hxa]
  · rw [findKey_insertKey]
    by_cases hxa : x = a
    · simp [hxa]
    · simp [hx, hxa]

/-- A byte's distance from the next address. -/
theorem sub_succ_toNat (x a : Word) (h : x ≠ a) : (x - (a + 1)).toNat = (x - a).toNat - 1 ∧ 0 < (x - a).toNat := by
  have hne : x.toNat ≠ a.toNat := fun hh => h (BitVec.eq_of_toNat_eq hh)
  have := x.isLt
  have := a.isLt
  constructor <;> bv_omega

/-- The distance of an address from its successor is the largest. -/
theorem self_sub_succ_toNat (a : Word) : (a - (a + 1)).toNat = 2 ^ 32 - 1 := by
  have := a.isLt
  bv_omega

/-- Reading a byte after a write access of `n` bytes to a canonical memory (R62, R70): the bytes from `a` are those of the value,
least significant first, and no other byte changes. -/
theorem readByte_writeBytes (m : Memory) (a x : Word) (n : Nat) (v : Word) (h : Memory.wf m = true) (hn : n < 2 ^ 32) :
    readByte (writeBytes m a n v) x =
      if (x - a).toNat < n then v.extractLsb' (8 * (x - a).toNat) 8 else readByte m x := by
  induction n generalizing m a v with
  | zero => simp [writeBytes]
  | succ n ih =>
    rw [writeBytes, ih _ _ _ (writeByte_wf _ _ _ h) (by omega), readByte_writeByte _ _ _ _ h]
    by_cases hx : x = a
    · subst hx
      have hlast : ¬ (x - (x + 1)).toNat < n := by
        rw [self_sub_succ_toNat]
        omega
      rw [if_neg hlast, if_pos rfl, if_pos (by simp)]
      simp
    · obtain ⟨h1, h2⟩ := sub_succ_toNat x a hx
      rw [h1]
      by_cases hlt : (x - a).toNat - 1 < n
      · have hlt' : (x - a).toNat < n + 1 := by omega
        rw [if_pos hlt, if_pos hlt']
        ext i hi
        simp only [BitVec.getElem_extractLsb', BitVec.getLsbD_ushiftRight]
        congr 1
        omega
      · have hlt' : ¬ (x - a).toNat < n + 1 := by omega
        rw [if_neg hlt, if_neg hlt', if_neg hx]

/-- Canonical memories that read the same are equal. -/
theorem Memory.eq_of_readByte_eq (m m' : Memory) (h : Memory.wf m = true) (h' : Memory.wf m' = true)
    (same : ∀ a, readByte m a = readByte m' a) : m = m' := by
  obtain ⟨hk, hv⟩ := (Memory.wf_iff m).1 h
  obtain ⟨hk', hv'⟩ := (Memory.wf_iff m').1 h'
  have found : ∀ (l : Memory) (k : Nat) (b : Byte), findKey k l = some b → (k, b) ∈ l := by
    intro l k b
    induction l with
    | nil => simp [findKey]
    | cons e t ih =>
      simp only [findKey]
      split
      · rename_i hk
        intro hb
        obtain ⟨a, c⟩ := e
        simp only [Option.some.injEq] at hb
        simp only at hk
        subst hk hb
        exact List.mem_cons_self
      · intro hb
        exact List.mem_cons_of_mem _ (ih hb)
  refine eq_of_findKey_eq m m' hk hk' (fun k => ?_)
  by_cases hlt : k < 2 ^ 32
  · have hs := same (BitVec.ofNat 32 k)
    have hn : (BitVec.ofNat 32 k).toNat = k := by
      rw [BitVec.toNat_ofNat, Nat.mod_eq_of_lt hlt]
    simp only [readByte, hn] at hs
    cases h1 : findKey k m with
    | none =>
      cases h2 : findKey k m' with
      | none => rfl
      | some b => simp [h1, h2] at hs; exact absurd hs.symm (hv' _ (found _ _ _ h2)).2
    | some b =>
      cases h2 : findKey k m' with
      | none => simp [h1, h2] at hs; exact absurd hs (hv _ (found _ _ _ h1)).2
      | some b' => simpa [h1, h2] using hs
  · have none_of : ∀ (l : Memory), (∀ c ∈ l, c.1 < 2 ^ 32 ∧ c.2 ≠ unlistedByte) → findKey k l = none := by
      intro l hl
      cases hf : findKey k l with
      | none => rfl
      | some b => exact absurd (hl _ (found _ _ _ hf)).1 hlt
    rw [none_of m hv, none_of m' hv']

/-- Reading a palette entry after writing one. -/
theorem readPalette_writePalette (p : Palette) (d : Nat) (i j : BitVec 8) (e : PalEntry) :
    readPalette (writePalette p i e) d j = if j = i then (e, 0) else readPalette p d j := by
  unfold readPalette writePalette
  rw [findKey_insertKey]
  have hx : j.toNat = i.toNat ↔ j = i := BitVec.toNat_inj
  by_cases h : j = i
  · simp [h]
  · simp [hx, h]

end Sys2Proof.Machine
end

