-- ==== Sys2Proof/Laws/State.lean ====
section
/-! SUPPORT. For each update of the state, one lemma a field: what the update leaves there. -/

namespace Sys2Proof.Machine

/-! Fault entry (60_exceptions.md R204). -/

@[simp] theorem raiseFault_rw (s : State) (c : FaultCode) (op : BitVec 8) : (s.raiseFault c op).rw = s.rw := rfl
@[simp] theorem raiseFault_resultRaw (s : State) (c : FaultCode) (op : BitVec 8) : (s.raiseFault c op).resultRaw = s.resultRaw := rfl
@[simp] theorem raiseFault_resultRgb (s : State) (c : FaultCode) (op : BitVec 8) : (s.raiseFault c op).resultRgb = s.resultRgb := rfl
@[simp] theorem raiseFault_status (s : State) (c : FaultCode) (op : BitVec 8) : (s.raiseFault c op).status = { err := true, ovr := s.status.ovr, errcode := c.number, errop := op } := rfl
@[simp] theorem raiseFault_engine (s : State) (c : FaultCode) (op : BitVec 8) : (s.raiseFault c op).engine = .idle := rfl
@[simp] theorem raiseFault_pal (s : State) (c : FaultCode) (op : BitVec 8) : (s.raiseFault c op).pal = s.pal := rfl
@[simp] theorem raiseFault_mem (s : State) (c : FaultCode) (op : BitVec 8) : (s.raiseFault c op).mem = s.mem := rfl
@[simp] theorem raiseFault_denied (s : State) (c : FaultCode) (op : BitVec 8) : (s.raiseFault c op).denied = s.denied := rfl
@[simp] theorem raiseFault_agenda (s : State) (c : FaultCode) (op : BitVec 8) : (s.raiseFault c op).agenda = s.agenda := rfl
@[simp] theorem raiseFault_hostData (s : State) (c : FaultCode) (op : BitVec 8) : (s.raiseFault c op).hostData = s.hostData := rfl
@[simp] theorem raiseFault_draws (s : State) (c : FaultCode) (op : BitVec 8) : (s.raiseFault c op).draws = s.draws := rfl

/-! Reset (70_reset_and_hazards.md R230). -/

@[simp] theorem resetBlock_rw (s : State) : (s.resetBlock).rw = OperandRegs.reset := rfl
@[simp] theorem resetBlock_resultRaw (s : State) : (s.resetBlock).resultRaw = 0 := rfl
@[simp] theorem resetBlock_resultRgb (s : State) : (s.resetBlock).resultRgb = 0 := rfl
@[simp] theorem resetBlock_status (s : State) : (s.resetBlock).status = Status.reset := rfl
@[simp] theorem resetBlock_engine (s : State) : (s.resetBlock).engine = .idle := rfl
@[simp] theorem resetBlock_pal (s : State) : (s.resetBlock).pal = [] := rfl
@[simp] theorem resetBlock_mem (s : State) : (s.resetBlock).mem = s.mem := rfl
@[simp] theorem resetBlock_denied (s : State) : (s.resetBlock).denied = s.denied := rfl
@[simp] theorem resetBlock_agenda (s : State) : (s.resetBlock).agenda = s.agenda := rfl
@[simp] theorem resetBlock_hostData (s : State) : (s.resetBlock).hostData = s.hostData := rfl
@[simp] theorem resetBlock_draws (s : State) : (s.resetBlock).draws = s.draws := rfl

/-! A dropped write (10_state.md R27). -/

@[simp] theorem setOvr_rw (s : State) : (s.setOvr).rw = s.rw := rfl
@[simp] theorem setOvr_resultRaw (s : State) : (s.setOvr).resultRaw = s.resultRaw := rfl
@[simp] theorem setOvr_resultRgb (s : State) : (s.setOvr).resultRgb = s.resultRgb := rfl
@[simp] theorem setOvr_status (s : State) : (s.setOvr).status = { s.status with ovr := true } := rfl
@[simp] theorem setOvr_engine (s : State) : (s.setOvr).engine = s.engine := rfl
@[simp] theorem setOvr_pal (s : State) : (s.setOvr).pal = s.pal := rfl
@[simp] theorem setOvr_mem (s : State) : (s.setOvr).mem = s.mem := rfl
@[simp] theorem setOvr_denied (s : State) : (s.setOvr).denied = s.denied := rfl
@[simp] theorem setOvr_agenda (s : State) : (s.setOvr).agenda = s.agenda := rfl
@[simp] theorem setOvr_hostData (s : State) : (s.setOvr).hostData = s.hostData := rfl
@[simp] theorem setOvr_draws (s : State) : (s.setOvr).draws = s.draws := rfl

/-! The accepted command word. -/

@[simp] theorem withCommand_rw (s : State) (w : Word) : (s.withCommand w).rw = s.rw := rfl
@[simp] theorem withCommand_resultRaw (s : State) (w : Word) : (s.withCommand w).resultRaw = s.resultRaw := rfl
@[simp] theorem withCommand_resultRgb (s : State) (w : Word) : (s.withCommand w).resultRgb = s.resultRgb := rfl
@[simp] theorem withCommand_status (s : State) (w : Word) : (s.withCommand w).status = { s.status with err := false, errcode := 0, errop := 0 } := rfl
@[simp] theorem withCommand_engine (s : State) (w : Word) : (s.withCommand w).engine = .busy (Flight.start w s.rw) := rfl
@[simp] theorem withCommand_pal (s : State) (w : Word) : (s.withCommand w).pal = s.pal := rfl
@[simp] theorem withCommand_mem (s : State) (w : Word) : (s.withCommand w).mem = s.mem := rfl
@[simp] theorem withCommand_denied (s : State) (w : Word) : (s.withCommand w).denied = s.denied := rfl
@[simp] theorem withCommand_agenda (s : State) (w : Word) : (s.withCommand w).agenda = [] := rfl
@[simp] theorem withCommand_hostData (s : State) (w : Word) : (s.withCommand w).hostData = s.hostData := rfl
@[simp] theorem withCommand_draws (s : State) (w : Word) : (s.withCommand w).draws = s.draws := rfl

/-! The end of a command (10_state.md R25): the fields it takes from the result. -/

@[simp] theorem complete_rw (s : State) (r : Result) (d : Word) : (s.complete r d).rw = (s.applyResult r d).rw := rfl
@[simp] theorem complete_resultRaw (s : State) (r : Result) (d : Word) : (s.complete r d).resultRaw = (s.applyResult r d).resultRaw := rfl
@[simp] theorem complete_resultRgb (s : State) (r : Result) (d : Word) : (s.complete r d).resultRgb = (s.applyResult r d).resultRgb := rfl
@[simp] theorem complete_engine (s : State) (r : Result) (d : Word) : (s.complete r d).engine = .idle := rfl
@[simp] theorem complete_draws (s : State) (r : Result) (d : Word) : (s.complete r d).draws = (s.applyResult r d).draws := rfl

/-! The result of a command touches only result registers (30_encoding.md R82). -/

@[simp] theorem applyResult_status (s : State) (r : Result) (d : Word) : (s.applyResult r d).status = s.status := by cases r <;> rfl
@[simp] theorem applyResult_engine (s : State) (r : Result) (d : Word) : (s.applyResult r d).engine = s.engine := by cases r <;> rfl
@[simp] theorem applyResult_pal (s : State) (r : Result) (d : Word) : (s.applyResult r d).pal = s.pal := by cases r <;> rfl
@[simp] theorem applyResult_mem (s : State) (r : Result) (d : Word) : (s.applyResult r d).mem = s.mem := by cases r <;> rfl
@[simp] theorem applyResult_denied (s : State) (r : Result) (d : Word) : (s.applyResult r d).denied = s.denied := by cases r <;> rfl
@[simp] theorem applyResult_agenda (s : State) (r : Result) (d : Word) : (s.applyResult r d).agenda = s.agenda := by cases r <;> rfl
@[simp] theorem applyResult_hostData (s : State) (r : Result) (d : Word) : (s.applyResult r d).hostData = s.hostData := by cases r <;> rfl

@[simp] theorem complete_status (s : State) (r : Result) (d : Word) : (s.complete r d).status = s.status := by cases r <;> rfl
@[simp] theorem complete_pal (s : State) (r : Result) (d : Word) : (s.complete r d).pal = s.pal := by cases r <;> rfl
@[simp] theorem complete_mem (s : State) (r : Result) (d : Word) : (s.complete r d).mem = s.mem := by cases r <;> rfl
@[simp] theorem complete_denied (s : State) (r : Result) (d : Word) : (s.complete r d).denied = s.denied := by cases r <;> rfl
@[simp] theorem complete_agenda (s : State) (r : Result) (d : Word) : (s.complete r d).agenda = s.agenda := by cases r <;> rfl
@[simp] theorem complete_hostData (s : State) (r : Result) (d : Word) : (s.complete r d).hostData = s.hostData := by cases r <;> rfl

/-! A write of `STATUS` (10_state.md R24) touches OVR only. -/

@[simp] theorem writeStatus_rw (s : State) (v : Word) : (s.writeStatus v).rw = s.rw := by unfold State.writeStatus; split <;> rfl
@[simp] theorem writeStatus_resultRaw (s : State) (v : Word) : (s.writeStatus v).resultRaw = s.resultRaw := by unfold State.writeStatus; split <;> rfl
@[simp] theorem writeStatus_resultRgb (s : State) (v : Word) : (s.writeStatus v).resultRgb = s.resultRgb := by unfold State.writeStatus; split <;> rfl
@[simp] theorem writeStatus_engine (s : State) (v : Word) : (s.writeStatus v).engine = s.engine := by unfold State.writeStatus; split <;> rfl
@[simp] theorem writeStatus_pal (s : State) (v : Word) : (s.writeStatus v).pal = s.pal := by unfold State.writeStatus; split <;> rfl
@[simp] theorem writeStatus_mem (s : State) (v : Word) : (s.writeStatus v).mem = s.mem := by unfold State.writeStatus; split <;> rfl
@[simp] theorem writeStatus_denied (s : State) (v : Word) : (s.writeStatus v).denied = s.denied := by unfold State.writeStatus; split <;> rfl
@[simp] theorem writeStatus_agenda (s : State) (v : Word) : (s.writeStatus v).agenda = s.agenda := by unfold State.writeStatus; split <;> rfl
@[simp] theorem writeStatus_hostData (s : State) (v : Word) : (s.writeStatus v).hostData = s.hostData := by unfold State.writeStatus; split <;> rfl
@[simp] theorem writeStatus_draws (s : State) (v : Word) : (s.writeStatus v).draws = s.draws := by unfold State.writeStatus; split <;> rfl

/-- What a write of `STATUS` leaves in it (R24, R27). -/
theorem writeStatus_status (s : State) (v : Word) :
    (s.writeStatus v).status = { s.status with ovr := s.status.ovr && !v.getLsbD 2 } := by
  unfold State.writeStatus
  split <;> simp_all

/-! `BUSY` follows the engine state (10_state.md R43). -/

@[simp] theorem busy_raiseFault (s : State) (c : FaultCode) (op : BitVec 8) : (s.raiseFault c op).busy = false := rfl
@[simp] theorem busy_resetBlock (s : State) : s.resetBlock.busy = false := rfl
@[simp] theorem busy_setOvr (s : State) : s.setOvr.busy = s.busy := rfl
@[simp] theorem busy_withCommand (s : State) (w : Word) : (s.withCommand w).busy = true := rfl
@[simp] theorem busy_complete (s : State) (r : Result) (d : Word) : (s.complete r d).busy = false := rfl

/-- BUSY = 1 exactly when a command is in flight (R43). -/
theorem busy_iff (s : State) : s.busy = true ↔ ∃ f, s.engine = .busy f := by
  unfold State.busy
  cases h : s.engine <;> simp

/-- BUSY = 0 exactly when the engine is Idle (R43). -/
theorem busy_eq_false_iff (s : State) : s.busy = false ↔ s.engine = .idle := by
  unfold State.busy
  cases h : s.engine <;> simp

/-! The fields of a command at its start (30_encoding.md R82). -/

@[simp] theorem flightStart_cmd (w : Word) (o : OperandRegs) : (Flight.start w o).cmd = w := rfl
@[simp] theorem flightStart_ops (w : Word) (o : OperandRegs) : (Flight.start w o).ops = o := rfl
@[simp] theorem flightStart_issued (w : Word) (o : OperandRegs) : (Flight.start w o).issued = 0 := rfl
@[simp] theorem flightStart_data (w : Word) (o : OperandRegs) : (Flight.start w o).data = 0 := rfl
@[simp] theorem flightStart_old (w : Word) (o : OperandRegs) : (Flight.start w o).old = [] := rfl

/-- A command's flight holds the operands of the state (R82). -/
@[simp] theorem flightOf_ops (s : State) (i : Instr) : (s.flightOf i).ops = s.operands := by
  unfold State.flightOf State.operands
  cases s.engine <;> rfl

/-- The command word of a command's flight (R81). -/
theorem flightOf_cmd (s : State) (i : Instr) (h : s.commandIs i = true) : (s.flightOf i).cmd = encode i := by
  unfold State.flightOf
  unfold State.commandIs at h
  cases hs : s.engine <;> simp_all

/-- At a command's start its flight has completed no access and read no data. -/
theorem flightOf_atStart (s : State) (i : Instr) (h : s.atStart = true) :
    (s.flightOf i).issued = 0 ∧ (s.flightOf i).data = 0 ∧ (s.flightOf i).old = [] := by
  unfold State.flightOf
  unfold State.atStart at h
  cases hs : s.engine <;> simp_all

/-- The opcode byte of a command's word (30_encoding.md R83, R85). -/
@[simp] theorem opcodeByte_encode (i : Instr) : opcodeByte (encode i) = opcode i := by cases i <;> rfl

/-- A command's word decodes to it (R83). -/
@[simp] theorem decode_encode (i : Instr) : decode (encode i) = .ok i := by cases i <;> rfl

end Sys2Proof.Machine
end

