-- ==== Sys2Proof/Laws/Engine.lean ====
section
/-! SUPPORT. What one access, a list of accesses and a whole command can do, said once. -/

namespace Sys2Proof.Machine

/-- `failIf` passes exactly when its condition fails. -/
@[simp] theorem failIf_ok (c : Prop) [Decidable c] (e : FaultCode) (u : Unit) : failIf c e = .ok u ↔ ¬ c := by
  unfold failIf
  split <;> simp_all

/-- `failIf` raises its code exactly when its condition holds. -/
@[simp] theorem failIf_error (c : Prop) [Decidable c] (e e' : FaultCode) : failIf c e = .error e' ↔ c ∧ e = e' := by
  unfold failIf
  split <;> simp_all

/-- A check followed by the rest of a command passes exactly when both do. -/
theorem bind_ok {α β : Type} (x : Except FaultCode α) (g : α → Except FaultCode β) (b : β) :
    (x >>= g) = .ok b ↔ ∃ a, x = .ok a ∧ g a = .ok b := by
  cases x <;> simp [bind, Except.bind]

/-- A check followed by the rest of a command faults with the first fault of the two (60_exceptions.md R203). -/
theorem bind_error {α β : Type} (x : Except FaultCode α) (g : α → Except FaultCode β) (e : FaultCode) :
    (x >>= g) = .error e ↔ x = .error e ∨ ∃ a, x = .ok a ∧ g a = .error e := by
  cases x <;> simp [bind, Except.bind]

/-- What one admitted access can do (20_memory.md R61, R72): a write of memory, a read of it, or a palette write. -/
theorem performAccess_cases {a : Access} {f f' : Flight} {s s' : State} (h : performAccess a f s = some (f', s')) :
    (∃ addr w v, a = .memWrite addr w v ∧ s.admits .write w addr = true ∧
      f' = { f with issued := f.issued + 1, old := cellsAt s.mem addr w.bytes :: f.old } ∧
      s' = { s with mem := writeBytes s.mem addr w.bytes v }) ∨
    (∃ addr w v d, a = .memRead addr w ∧ s.admits .read w addr = true ∧
      (f.raced addr w.bytes = false → v = readBytes s.mem addr w.bytes ∧ d = s.draws) ∧
      f' = { f with issued := f.issued + 1, data := f.data ||| (v <<< (8 * f.issued)) } ∧
      s' = { s with draws := d }) ∨
    (∃ idx e, a = .palWrite idx e ∧ f' = { f with issued := f.issued + 1 } ∧
      s' = { s with pal := writePalette s.pal idx e }) := by
  cases a with
  | memWrite addr w v =>
    simp only [performAccess] at h
    split at h
    · obtain ⟨rfl, rfl⟩ := by simpa using h
      exact .inl ⟨addr, w, v, rfl, by assumption, rfl, rfl⟩
    · cases h
  | memRead addr w =>
    simp only [performAccess] at h
    split at h
    · obtain ⟨rfl, rfl⟩ := by simpa using h
      exact .inr (.inl ⟨addr, w, _, _, rfl, by assumption, fun hr => by simp [hr], rfl, rfl⟩)
    · cases h
  | palWrite idx e =>
    obtain ⟨rfl, rfl⟩ := by simpa [performAccess] using h
    exact .inr (.inr ⟨idx, e, rfl, rfl, rfl⟩)

/-- An access does not complete exactly when the memory does not admit it (R61). -/
theorem performAccess_none {a : Access} {f : Flight} {s : State} :
    performAccess a f s = none ↔ s.admitsAll [a] = false := by
  cases a with
  | memWrite addr w v =>
    simp only [performAccess, State.admitsAll, List.all_cons, List.all_nil, Bool.and_true]
    split <;> simp_all
  | memRead addr w =>
    simp only [performAccess, State.admitsAll, List.all_cons, List.all_nil, Bool.and_true]
    split <;> simp_all
  | palWrite idx e => simp [performAccess, State.admitsAll]

/-- The frame of one access: it keeps the command and its snapshot, counts itself, and touches nothing but the memory, the
palette RAM and the draw counter. -/
theorem performAccess_frame {a : Access} {f f' : Flight} {s s' : State} (h : performAccess a f s = some (f', s')) :
    f'.cmd = f.cmd ∧ f'.ops = f.ops ∧ f'.issued = f.issued + 1 ∧
      s' = { s with mem := s'.mem, pal := s'.pal, draws := s'.draws } ∧
      (s.mem.wf = true → s'.mem.wf = true) ∧ (s.pal.wf = true → s'.pal.wf = true) := by
  rcases performAccess_cases h with ⟨_, _, _, _, _, rfl, rfl⟩ | ⟨_, _, _, _, _, _, _, rfl, rfl⟩ | ⟨_, _, _, rfl, rfl⟩
  · exact ⟨rfl, rfl, rfl, rfl, writeBytes_wf _ _ _ _, id⟩
  · exact ⟨rfl, rfl, rfl, rfl, id, id⟩
  · exact ⟨rfl, rfl, rfl, rfl, id, writePalette_wf _ _ _⟩

/-- Which accesses are admitted depends on nothing that an access changes. -/
theorem admitsAll_congr {s s' : State} (h : s'.denied = s.denied) (l : List Access) : s'.admitsAll l = s.admitsAll l := by
  unfold State.admitsAll State.admits
  rw [h]

/-- The frame of a list of accesses (R74). -/
theorem runAccesses_frame {l : List Access} {f f' : Flight} {s s' : State} {b : Bool}
    (h : runAccesses l f s = (f', s', b)) :
    f'.cmd = f.cmd ∧ f'.ops = f.ops ∧ s' = { s with mem := s'.mem, pal := s'.pal, draws := s'.draws } ∧
      (s.mem.wf = true → s'.mem.wf = true) ∧ (s.pal.wf = true → s'.pal.wf = true) := by
  induction l generalizing f s with
  | nil =>
    obtain ⟨rfl, rfl, rfl⟩ := by simpa [runAccesses] using h
    exact ⟨rfl, rfl, rfl, id, id⟩
  | cons a l ih =>
    simp only [runAccesses] at h
    split at h
    · obtain ⟨rfl, rfl, rfl⟩ := by simpa using h
      exact ⟨rfl, rfl, rfl, id, id⟩
    · rename_i f1 s1 h1
      obtain ⟨c1, o1, _, e1, m1, p1⟩ := performAccess_frame h1
      obtain ⟨c2, o2, e2, m2, p2⟩ := ih h
      refine ⟨c2.trans c1, o2.trans o1, ?_, m2 ∘ m1, p2 ∘ p1⟩
      rw [e2, e1]

/-- All accesses of a list complete exactly when the memory admits each of them (R61). -/
theorem runAccesses_done (l : List Access) (f : Flight) (s : State) : (runAccesses l f s).2.2 = s.admitsAll l := by
  induction l generalizing f s with
  | nil => rfl
  | cons a l ih =>
    have hcons : s.admitsAll (a :: l) = (s.admitsAll [a] && s.admitsAll l) := by simp [State.admitsAll]
    simp only [runAccesses]
    split
    · rename_i h
      rw [hcons, performAccess_none.1 h]
      rfl
    · rename_i f1 s1 h1
      have hne : s.admitsAll [a] = true := by
        by_contra hc
        rw [performAccess_none.2 (by simpa using hc)] at h1
        cases h1
      have hd : s1.denied = s.denied := by rw [(performAccess_frame h1).2.2.2.1]
      rw [ih, hcons, hne, admitsAll_congr hd]
      rfl

/-- What a whole command can do (30_encoding.md R81): take a fault with nothing else changed, complete after all its accesses, or
stop with BUSY = 1 at an access that the memory does not admit. -/
theorem runCommand_cases (i : Instr) (plan : OperandRegs → Except FaultCode Plan) (s : State) :
    (∃ c, plan s.operands = .error c ∧ runCommand i plan s = s.raiseFault c (opcodeByte (s.flightOf i).cmd)) ∨
    (∃ p f' s', plan s.operands = .ok p ∧
      runAccesses (p.accesses.drop (s.flightOf i).issued) (s.flightOf i) s = (f', s', true) ∧
      s.admitsAll (p.accesses.drop (s.flightOf i).issued) = true ∧
      runCommand i plan s = s'.complete p.result f'.data) ∨
    (∃ p f' s', plan s.operands = .ok p ∧
      runAccesses (p.accesses.drop (s.flightOf i).issued) (s.flightOf i) s = (f', s', false) ∧
      s.admitsAll (p.accesses.drop (s.flightOf i).issued) = false ∧
      runCommand i plan s = { s' with engine := .busy f' }) := by
  unfold runCommand
  simp only [flightOf_ops]
  cases hp : plan s.operands with
  | error c => exact .inl ⟨c, rfl, rfl⟩
  | ok p =>
    have hd := runAccesses_done (p.accesses.drop (s.flightOf i).issued) (s.flightOf i) s
    rcases hr : runAccesses (p.accesses.drop (s.flightOf i).issued) (s.flightOf i) s with ⟨f', s', b⟩
    rw [hr] at hd
    cases b with
    | true => exact .inr (.inl ⟨p, f', s', rfl, hr, hd.symm, by simp [hr]⟩)
    | false => exact .inr (.inr ⟨p, f', s', rfl, hr, hd.symm, by simp [hr]⟩)

/-- Every meaning is its command's plan, run (R83). -/
theorem exec_eq_runCommand (i : Instr) (s : State) : exec i s = .next (runCommand i (planOf i) s) := by
  cases i <;> rfl

end Sys2Proof.Machine
end

