-- ==== Sys2Proof/Laws/Checks.lean ====
section
/-! SUPPORT. When the shared checks of the commands pass, said in the words of Safety, and which accesses a container takes. -/

namespace Sys2Proof.Machine

/-- `check_format()` passes with a container exactly when `formatOk` says so (41_surface.md R130). -/
theorem checkFormat_ok (o : OperandRegs) (c : Container) : checkFormat o = .ok c ↔ o.formatOk c = true := by
  unfold checkFormat OperandRegs.formatOk
  cases containerOf o.bpp with
  | none => simp
  | some d => cases o.indexed <;> cases d <;> cases c <;> decide

/-- The format check and `pixel_target()` pass exactly when `pixelOk` says so, and give the pixel's address (R131). -/
theorem pixelTarget_ok (o : OperandRegs) (c : Container) (a : Word) :
    (o.formatOk c = true ∧ pixelTarget o c = .ok a) ↔ o.pixelOk c = true ∧ a = o.surfaceAddr (o.pixOffset c) := by
  simp only [pixelTarget, bind_ok, failIf_ok, OperandRegs.pixelOk, pure, Except.pure, Bool.and_eq_true, decide_eq_true_eq,
    Except.ok.injEq, not_or, not_lt, not_le, exists_const, Bool.not_eq_false]
  constructor
  · rintro ⟨h1, ⟨h2, h3⟩, ⟨h4, h5⟩, h6, rfl⟩
    exact ⟨⟨⟨⟨⟨⟨h1, h2⟩, h3⟩, h4⟩, h5⟩, h6⟩, rfl⟩
  · rintro ⟨⟨⟨⟨⟨⟨h1, h2⟩, h3⟩, h4⟩, h5⟩, h6⟩, rfl⟩
    exact ⟨h1, ⟨h2, h3⟩, ⟨h4, h5⟩, h6, rfl⟩

/-- The format check and `offset_target()` pass exactly when `offsetOk` says so, and give the container's address (R132). -/
theorem offsetTarget_ok (o : OperandRegs) (c : Container) (a : Word) :
    (o.formatOk c = true ∧ offsetTarget o c = .ok a) ↔ o.offsetOk c = true ∧ a = o.surfaceAddr o.offset.toNat := by
  simp only [offsetTarget, bind_ok, failIf_ok, OperandRegs.offsetOk, pure, Except.pure, Bool.and_eq_true, decide_eq_true_eq,
    Except.ok.injEq, not_lt, exists_const, Bool.not_eq_false]
  constructor
  · rintro ⟨h1, h2, h3, rfl⟩
    exact ⟨⟨⟨h1, h2⟩, h3⟩, rfl⟩
  · rintro ⟨⟨⟨h1, h2⟩, h3⟩, rfl⟩
    exact ⟨h1, h2, h3, rfl⟩

/-- `check_extract()` passes exactly when `extractOk` says so (40_codec.md R105). -/
theorem checkExtract_ok (o : OperandRegs) : checkExtract o = .ok () ↔ o.extractOk = true := by
  simp [checkExtract, checkChannel, bind_ok, OperandRegs.extractOk, and_assoc]

/-- The memory admits the accesses of `ContainerWrite` exactly when `admitsContainer` says so (20_memory.md R61, R64). -/
theorem admitsAll_containerWrite (s : State) (c : Container) (a raw : Word) :
    s.admitsAll (containerWrite c a raw) = s.admitsContainer .write c a := by
  cases c <;> simp [State.admitsAll, containerWrite, State.admitsContainer, Bool.and_assoc]

/-- The memory admits the accesses of `ContainerRead` exactly when `admitsContainer` says so (R61, R65). -/
theorem admitsAll_containerRead (s : State) (c : Container) (a : Word) :
    s.admitsAll (containerRead c a) = s.admitsContainer .read c a := by
  cases c <;> simp [State.admitsAll, containerRead, State.admitsContainer, Bool.and_assoc]

/-- One bit of bytes assembled little-endian: bit `j % 8` of byte `j / 8` (R62). -/
theorem assembleLE_getLsbD (g : Word → Byte) (a : Word) (n j : Nat) (hn : n ≤ 4) :
    (assembleLE g a n).getLsbD j = (decide (j < 8 * n) && (g (a + BitVec.ofNat 32 (j / 8))).getLsbD (j % 8)) := by
  induction n generalizing a j with
  | zero => simp [assembleLE]
  | succ n ih =>
    rw [assembleLE, BitVec.getLsbD_or, BitVec.getLsbD_shiftLeft, ih _ _ (by omega)]
    by_cases h8 : j < 8
    · simp [h8, show j < 32 by omega, show j / 8 = 0 by omega, show j % 8 = j by omega, show j < 8 * (n + 1) by omega]
    · have e : a + 1 + BitVec.ofNat 32 ((j - 8) / 8) = a + BitVec.ofNat 32 (j / 8) := by
        rw [BitVec.add_assoc]
        congr 1
        apply BitVec.eq_of_toNat_eq
        simp
        omega
      rw [e, show (j - 8) % 8 = j % 8 by omega, BitVec.getLsbD_setWidth, BitVec.getLsbD_of_ge _ j (by omega)]
      by_cases hj : j < 8 * (n + 1)
      · simp [h8, hj, show j < 32 by omega, show j - 8 < 8 * n by omega]
      · simp [hj, show ¬ j - 8 < 8 * n by omega]

/-- One access depends on the memory, the palette RAM, the admitted accesses and the draw counter alone, and keeps the rest of the
state it is given. -/
theorem performAccess_congr (a : Access) (f : Flight) (s s0 : State) (h1 : s0.mem = s.mem) (h2 : s0.pal = s.pal)
    (h3 : s0.draws = s.draws) (h4 : s0.denied = s.denied) :
    performAccess a f s0 = (performAccess a f s).map
      (fun q => (q.1, { s0 with mem := q.2.mem, pal := q.2.pal, draws := q.2.draws })) := by
  have ha : ∀ k w x, s0.admits k w x = s.admits k w x := by intro k w x; simp [State.admits, h4]
  cases a <;> simp only [performAccess, ha, h1, h2, h3]
  · split <;> simp [← h2, ← h3]
  · split <;> simp [← h1, ← h2]
  · simp [← h1, ← h3]

/-- A list of accesses likewise. -/
theorem runAccesses_congr (l : List Access) (f : Flight) (s s0 : State) (h1 : s0.mem = s.mem) (h2 : s0.pal = s.pal)
    (h3 : s0.draws = s.draws) (h4 : s0.denied = s.denied) :
    runAccesses l f s0 =
      ((runAccesses l f s).1,
        { s0 with
          mem := (runAccesses l f s).2.1.mem
          pal := (runAccesses l f s).2.1.pal
          draws := (runAccesses l f s).2.1.draws },
        (runAccesses l f s).2.2) := by
  induction l generalizing f s s0 with
  | nil => simp [runAccesses, ← h1, ← h2, ← h3]
  | cons a l ih =>
    simp only [runAccesses]
    rw [performAccess_congr a f s s0 h1 h2 h3 h4]
    cases hp : performAccess a f s with
    | none => simp [← h1, ← h2, ← h3]
    | some q =>
      simp only [Option.map_some]
      have hd : q.2.denied = s.denied := by rw [(performAccess_frame hp).2.2.2.1]
      rw [ih q.1 q.2 { s0 with mem := q.2.mem, pal := q.2.pal, draws := q.2.draws } rfl rfl rfl (h4.trans hd.symm)]

end Sys2Proof.Machine
end

