-- ==== Sys2Proof/Laws/Container.lean ====
section
/-! SUPPORT. A container write and a container read, whole: what their accesses come to when the memory admits them. -/

namespace Sys2Proof.Machine

/-- Three byte writes of a 24-bit container are one write of its three bytes (20_memory.md R64, R66). -/
theorem writeBytes_three (m : Memory) (a v : Word) :
    writeBytes (writeBytes (writeBytes m a 1 ((v.extractLsb' 0 8).setWidth 32)) (a + 1) 1 ((v.extractLsb' 8 8).setWidth 32))
      (a + 2) 1 ((v.extractLsb' 16 8).setWidth 32) = writeBytes m a 3 v := by
  have h2 : a + 1 + 1 = a + 2 := by
    rw [BitVec.add_assoc]
    rfl
  have e0 : ((v.extractLsb' 0 8).setWidth 32).extractLsb' 0 8 = v.extractLsb' 0 8 := by
    ext i hi
    simp [hi, show i < 32 by omega]
  have e1 : ((v.extractLsb' 8 8).setWidth 32).extractLsb' 0 8 = (v >>> 8).extractLsb' 0 8 := by
    ext i hi
    simp [hi, show i < 32 by omega]
  have e2 : ((v.extractLsb' 16 8).setWidth 32).extractLsb' 0 8 = (v >>> 8 >>> 8).extractLsb' 0 8 := by
    ext i hi
    simp [hi, show i < 32 by omega]
  simp only [writeBytes, e0, e1, e2, h2]

/-- The bytes of a container that a write of its width stores do not depend on the bits above it (R64). -/
theorem writeBytes_low (m : Memory) (a v v' : Word) (n : Nat)
    (h : ∀ i, i < 8 * n → v.getLsbD i = v'.getLsbD i) : writeBytes m a n v = writeBytes m a n v' := by
  induction n generalizing m a v v' with
  | zero => rfl
  | succ n ih =>
    have e : v.extractLsb' 0 8 = v'.extractLsb' 0 8 := by
      ext i hi
      simpa using h i (by omega)
    rw [writeBytes, writeBytes, e]
    refine ih _ _ _ _ (fun i hi => ?_)
    simpa using h (8 + i) (by omega)

/-- `ContainerWrite(addr, raw)`, admitted: the container's bytes are written, little-endian, and nothing else (R64, R66). -/
theorem runAccesses_containerWrite (c : Container) (addr raw : Word) (f : Flight) (s : State)
    (h : s.admitsAll (containerWrite c addr raw) = true) :
    ∃ f', f'.data = f.data ∧ runAccesses (containerWrite c addr raw) f s =
      (f', { s with mem := writeBytes s.mem addr c.nbytes raw }, true) := by
  cases c with
  | c8 =>
    obtain h1 : s.admits .write .b1 addr = true := by simpa [containerWrite, State.admitsAll] using h
    refine ⟨{ f with issued := f.issued + 1, old := cellsAt s.mem addr 1 :: f.old }, rfl, ?_⟩
    have e : writeBytes s.mem addr 1 ((raw.extractLsb' 0 8).setWidth 32) = writeBytes s.mem addr 1 raw :=
      writeBytes_low _ _ _ _ _ (fun i hi => by simp [show i < 32 by omega]; omega)
    simp [containerWrite, runAccesses, performAccess, h1, Width.bytes, Container.nbytes, e]
  | c16 =>
    obtain h1 : s.admits .write .b2 addr = true := by simpa [containerWrite, State.admitsAll] using h
    refine ⟨{ f with issued := f.issued + 1, old := cellsAt s.mem addr 2 :: f.old }, rfl, ?_⟩
    have e : writeBytes s.mem addr 2 ((raw.extractLsb' 0 16).setWidth 32) = writeBytes s.mem addr 2 raw :=
      writeBytes_low _ _ _ _ _ (fun i hi => by simp [show i < 32 by omega]; omega)
    simp [containerWrite, runAccesses, performAccess, h1, Width.bytes, Container.nbytes, e]
  | c24 =>
    obtain ⟨h1, h2, h3⟩ : s.admits .write .b1 addr = true ∧ s.admits .write .b1 (addr + 1) = true ∧
        s.admits .write .b1 (addr + 2) = true := by simpa [containerWrite, State.admitsAll] using h
    have hd : ∀ m x, ({ s with mem := m } : State).admits .write .b1 x = s.admits .write .b1 x := fun _ _ => rfl
    have e := writeBytes_three s.mem addr raw
    simp only [BitVec.ofNat_eq_ofNat] at h2 h3 e
    simp [containerWrite, runAccesses, performAccess, hd, h1, h2, h3, Width.bytes, Container.nbytes, e]
  | c32 =>
    obtain h1 : s.admits .write .b4 addr = true := by simpa [containerWrite, State.admitsAll] using h
    refine ⟨{ f with issued := f.issued + 1, old := cellsAt s.mem addr 4 :: f.old }, rfl, ?_⟩
    simp [containerWrite, runAccesses, performAccess, h1, Width.bytes, Container.nbytes]

/-- Three byte reads of a 24-bit container assemble its three bytes (R65, R66). -/
theorem readBytes_three (m : Memory) (a : Word) :
    (0 ||| readBytes m a 1 <<< 0) ||| readBytes m (a + 1) 1 <<< 8 ||| readBytes m (a + 2) 1 <<< 16 = readBytes m a 3 := by
  have h2 : a + 1 + 1 = a + 2 := by
    rw [BitVec.add_assoc]
    rfl
  simp only [readBytes, assembleLE, h2]
  ext i hi
  simp only [BitVec.getElem_or, BitVec.getElem_shiftLeft, BitVec.getElem_setWidth]
  by_cases h8 : i < 8
  · simp [h8, show i < 16 by omega]
  · by_cases h16 : i < 16
    · simp [h8, h16, show i - 8 < 8 by omega]
    · simp [h8, h16, show ¬ i - 8 < 8 by omega, show i - 8 - 8 = i - 16 by omega, Bool.or_assoc]

/-- `ContainerRead(addr)`, admitted and at the command's start: the container's bytes are read, little-endian, zero-extended, and
nothing changes (R65, R66, R73). -/
theorem runAccesses_containerRead (c : Container) (addr : Word) (f : Flight) (s : State)
    (hi : f.issued = 0) (hd : f.data = 0) (ho : f.old = []) (h : s.admitsAll (containerRead c addr) = true) :
    ∃ f', f'.data = readBytes s.mem addr c.nbytes ∧ runAccesses (containerRead c addr) f s = (f', s, true) := by
  obtain ⟨cmd, ops, issued, data, old⟩ := f
  obtain ⟨rfl, rfl, rfl⟩ : issued = 0 ∧ data = 0 ∧ old = [] := ⟨hi, hd, ho⟩
  cases c with
  | c8 =>
    obtain h1 : s.admits .read .b1 addr = true := by simpa [containerRead, State.admitsAll] using h
    simp [containerRead, runAccesses, performAccess, h1, Width.bytes, Container.nbytes, Flight.raced]
  | c16 =>
    obtain h1 : s.admits .read .b2 addr = true := by simpa [containerRead, State.admitsAll] using h
    simp [containerRead, runAccesses, performAccess, h1, Width.bytes, Container.nbytes, Flight.raced]
  | c24 =>
    obtain ⟨h1, h2, h3⟩ : s.admits .read .b1 addr = true ∧ s.admits .read .b1 (addr + 1) = true ∧
        s.admits .read .b1 (addr + 2) = true := by simpa [containerRead, State.admitsAll] using h
    have e := readBytes_three s.mem addr
    simp only [BitVec.shiftLeft_zero, BitVec.ofNat_eq_ofNat] at e h2 h3
    refine ⟨⟨cmd, ops, 3, readBytes s.mem addr 3, []⟩, rfl, ?_⟩
    simp [containerRead, runAccesses, performAccess, h1, h2, h3, Width.bytes, Flight.raced, ← e]
  | c32 =>
    obtain h1 : s.admits .read .b4 addr = true := by simpa [containerRead, State.admitsAll] using h
    simp [containerRead, runAccesses, performAccess, h1, Width.bytes, Container.nbytes, Flight.raced]

end Sys2Proof.Machine
end

