-- ==== Sys2Proof/Laws/Host.lean ====
section
/-! SUPPORT. What a host access, one turn of the engine and one step can do, said once. -/

namespace Sys2Proof.Machine

/-- What a register write can do (10_state.md R22, R27, 30_encoding.md R81): nothing, a `STATUS` write, a drop that sets OVR, the
start of a command from Idle without a fault, or from Idle the store of an RW register. -/
theorem writeRegister_cases (s : State) (r : RegName) (v : Word) :
    s.writeRegister r v = s ∨
    (r = .status ∧ s.writeRegister r v = s.writeStatus v) ∨
    (s.busy = true ∧ s.writeRegister r v = s.setOvr) ∨
    (r = .cmd ∧ s.busy = false ∧ s.status.err = false ∧
      s.writeRegister r v = { s with engine := .busy (Flight.start v s.rw) }) ∨
    (s.busy = false ∧ s.writeRegister r v = { s with rw := s.rw.store r (v &&& storedBits r) }) := by
  cases hb : s.busy <;> cases he : s.status.err <;> cases r <;> simp [State.writeRegister, State.writeCommand, hb, he]

/-- A register read changes nothing but the value the host sees and the draw counter (R73, R237). -/
theorem readRegister_frame (s : State) (r : RegName) :
    s.readRegister r = { s with hostData := (s.readRegister r).hostData, draws := (s.readRegister r).draws } := by
  unfold State.readRegister
  split <;> rfl

/-- A register access is in the interface exactly when it is a 32-bit access at a multiple of 4 below 0x100 (R80). -/
theorem registerAccessRefusal_none (off size : Nat) :
    registerAccessRefusal off size = none ↔ registerAccessInside off size = true := by
  unfold registerAccessRefusal Config.regSpan registerAccessInside
  split_ifs <;> simp <;> omega

/-- A host write of bytes while a command is in flight changes the memory and the draw counter alone, and keeps the memory's
canonical form (20_memory.md R76). -/
theorem hostWriteBytes_frame (f : Flight) (s : State) (a : Word) (n : Nat) (v : Word) :
    f.hostWriteBytes s a n v =
        { s with mem := (f.hostWriteBytes s a n v).mem, draws := (f.hostWriteBytes s a n v).draws } ∧
      (s.mem.wf = true → (f.hostWriteBytes s a n v).mem.wf = true) := by
  induction n generalizing s a v with
  | zero => exact ⟨rfl, id⟩
  | succ n ih =>
    unfold Flight.hostWriteBytes
    obtain ⟨e, h⟩ := ih (f.hostWriteByte s a (v.extractLsb' 0 8)) (a + 1) (v >>> 8)
    have hb : f.hostWriteByte s a (v.extractLsb' 0 8) =
          { s with
            mem := (f.hostWriteByte s a (v.extractLsb' 0 8)).mem
            draws := (f.hostWriteByte s a (v.extractLsb' 0 8)).draws } ∧
        (s.mem.wf = true → (f.hostWriteByte s a (v.extractLsb' 0 8)).mem.wf = true) := by
      unfold Flight.hostWriteByte
      split
      · exact ⟨rfl, writeByte_wf _ _ _⟩
      · exact ⟨rfl, writeByte_wf _ _ _⟩
    refine ⟨?_, fun hw => h (hb.2 hw)⟩
    conv_lhs => rw [e]
    rw [hb.1]

/-- A host write of the framebuffer changes the memory, the running command's account of replaced bytes and the draw counter; it
keeps the engine state otherwise, and the memory's canonical form (R75, R76). -/
theorem hostFbWrite_frame (s : State) (a : Word) (w : Width) (v : Word) :
    s.hostFbWrite a w v =
        { s with
          mem := (s.hostFbWrite a w v).mem
          engine := (s.hostFbWrite a w v).engine
          draws := (s.hostFbWrite a w v).draws } ∧
      (s.engine = .idle → (s.hostFbWrite a w v).engine = .idle) ∧
      (∀ f, s.engine = .busy f → ∃ old, (s.hostFbWrite a w v).engine = .busy { f with old := old }) ∧
      (s.mem.wf = true → (s.hostFbWrite a w v).mem.wf = true) := by
  unfold State.hostFbWrite
  cases he : s.engine with
  | idle => exact ⟨rfl, fun _ => rfl, (fun f h => nomatch h), writeBytes_wf _ _ _ _⟩
  | busy f =>
    simp only
    split
    · exact ⟨rfl, (fun h => nomatch h), fun g h => ⟨_, by cases h; rfl⟩, writeBytes_wf _ _ _ _⟩
    · obtain ⟨e, h⟩ := hostWriteBytes_frame f s a w.bytes v
      refine ⟨?_, (fun h => nomatch h), fun g hg => ⟨f.old, ?_⟩, h⟩
      · conv_lhs => rw [e]
        rw [e]
      · cases hg
        rw [e, he]

/-- What one turn of the engine can do (20_memory.md R74): from Idle nothing; while Busy a fault entry, one access, the end of the
command, or nothing at an access that the memory does not admit (R61). -/
theorem tick_cases (s : State) :
    (s.engine = .idle ∧ s.tick = s) ∨
    (∃ f c, s.engine = .busy f ∧ s.tick = s.raiseFault c (opcodeByte f.cmd)) ∨
    (∃ f i p, s.engine = .busy f ∧ decode f.cmd = .ok i ∧ planOf i f.ops = .ok p ∧
      ((p.accesses.drop f.issued = [] ∧ s.tick = s.complete p.result f.data) ∨
        (∃ a rest, p.accesses.drop f.issued = a :: rest ∧
          ((s.admitsAll [a] = false ∧ s.tick = s) ∨
            ∃ f' s', performAccess a f s = some (f', s') ∧ s.tick = { s' with engine := .busy f' })))) := by
  unfold State.tick
  cases he : s.engine with
  | idle => exact .inl ⟨rfl, rfl⟩
  | busy f =>
    refine .inr ?_
    simp only
    split
    · exact .inl ⟨f, .illegal, rfl, rfl⟩
    · rename_i i hd
      split
      · rename_i c _
        exact .inl ⟨f, c, rfl, rfl⟩
      · rename_i p hp
        refine .inr ⟨f, i, p, rfl, hd, hp, ?_⟩
        unfold tickPlan
        split
        · rename_i hdrop
          exact .inl ⟨hdrop, rfl⟩
        · rename_i a rest hdrop
          refine .inr ⟨a, rest, hdrop, ?_⟩
          split
          · rename_i hn
            exact .inl ⟨performAccess_none.1 hn, rfl⟩
          · rename_i f' s' hsome
            exact .inr ⟨f', s', hsome, rfl⟩

/-- What one step can do (log 1): a turn of the engine, nothing, or the event at the head of the agenda. -/
theorem step_cases (s : State) :
    (s.engineMoves = true ∧ step s = engineTurn s) ∨
    (∃ e rest, s.engineMoves = false ∧ s.agenda = e :: rest ∧ step s = hostEvent e { s with agenda := rest }) := by
  unfold step hostTurn
  cases hm : s.engineMoves with
  | true => exact .inl ⟨rfl, rfl⟩
  | false =>
    cases ha : s.agenda with
    | nil => simp [State.engineMoves, ha] at hm
    | cons e rest => exact .inr ⟨e, rest, rfl, rfl, rfl⟩

/-- What the engine's turn can do: nothing from Idle, E_ILLEGAL, or the command's meaning (30_encoding.md R81, R84). -/
theorem engineTurn_cases (s : State) :
    (s.engine = .idle ∧ engineTurn s = .next s) ∨
    (∃ f e, s.engine = .busy f ∧ decode f.cmd = .error e ∧
      engineTurn s = .next (s.raiseFault .illegal (opcodeByte f.cmd))) ∨
    (∃ f i, s.engine = .busy f ∧ decode f.cmd = .ok i ∧ engineTurn s = exec i s) := by
  unfold engineTurn
  cases he : s.engine with
  | idle => exact .inl ⟨rfl, rfl⟩
  | busy f =>
    cases hd : decode f.cmd with
    | error e => exact .inr (.inl ⟨f, e, rfl, hd, by simp [hd]⟩)
    | ok i => exact .inr (.inr ⟨f, i, rfl, hd, by simp [hd]⟩)

end Sys2Proof.Machine
end

