-- ==== Sys2Proof/Laws/Palette.lean ====
section
/-! SUPPORT. What `install` leaves in the palette RAM (42_palette.md R170). -/

namespace Sys2Proof.Machine

/-- The palette writes of `install(start, es)` put entry `k` of `es` at index `start + k`, keep every other entry, and leave the
rest of the state as it was. -/
theorem runAccesses_install (start : Nat) (es : List PalEntry) (rest : List Access) (f : Flight) (s : State)
    (hb : start + es.length ≤ 256) :
    ∃ f' p', runAccesses (install start es ++ rest) f s = runAccesses rest f' { s with pal := p' } ∧
      ∀ i, i < 256 → findKey i p' = if start ≤ i ∧ i < start + es.length then es[i - start]? else findKey i s.pal := by
  induction es generalizing start f s with
  | nil => exact ⟨f, s.pal, rfl, fun i _ => by simp⟩
  | cons e es ih =>
    simp only [List.length_cons] at hb
    obtain ⟨f', p', h1, h2⟩ := ih (start + 1) { f with issued := f.issued + 1 }
      { s with pal := writePalette s.pal (BitVec.ofNat 8 start) e } (by omega)
    refine ⟨f', p', by simpa [install, runAccesses, performAccess] using h1, ?_⟩
    intro i hi
    rw [h2 i hi]
    simp only [List.length_cons]
    by_cases c1 : start + 1 ≤ i ∧ i < start + 1 + es.length
    · rw [if_pos c1, if_pos (by omega), show i - start = (i - (start + 1)) + 1 by omega, List.getElem?_cons_succ]
    · rw [if_neg c1]
      simp only [writePalette, findKey_insertKey, BitVec.toNat_ofNat]
      rw [Nat.mod_eq_of_lt (by omega)]
      by_cases c2 : i = start
      · subst c2
        simp
      · rw [if_neg c2, if_neg (by omega)]

end Sys2Proof.Machine
end

