-- ==== Sys2Proof/Laws/PerInstr.lean ====
section
/-! SUPPORT. Statements about every command as syntax, one lemma for each constructor. -/

namespace Sys2Proof.Laws.CommandWord

/-- The command word of a command is 0x000000OP with OP its opcode: its reserved field is 0, its opcode byte is the opcode map's,
and the map reads the command back from that byte (30_encoding.md R81, R83, R85). -/
def Statement (i : Instr) : Prop :=
  i.wellFormed = true ∧ reservedField (encode i) = 0 ∧ opcodeByte (encode i) = opcode i ∧ decodeOpcode (opcode i) = some i

theorem encRep : Statement .encRep := by refine ⟨rfl, rfl, rfl, rfl⟩
theorem encCol : Statement .encCol := by refine ⟨rfl, rfl, rfl, rfl⟩
theorem encPal : Statement .encPal := by refine ⟨rfl, rfl, rfl, rfl⟩
theorem extract : Statement .extract := by refine ⟨rfl, rfl, rfl, rfl⟩
theorem setpixRep : Statement .setpixRep := by refine ⟨rfl, rfl, rfl, rfl⟩
theorem setpixCol : Statement .setpixCol := by refine ⟨rfl, rfl, rfl, rfl⟩
theorem setpixPal : Statement .setpixPal := by refine ⟨rfl, rfl, rfl, rfl⟩
theorem putraw : Statement .putraw := by refine ⟨rfl, rfl, rfl, rfl⟩
theorem getpix : Statement .getpix := by refine ⟨rfl, rfl, rfl, rfl⟩
theorem grabpix : Statement .grabpix := by refine ⟨rfl, rfl, rfl, rfl⟩
theorem cwrite : Statement .cwrite := by refine ⟨rfl, rfl, rfl, rfl⟩
theorem cread : Statement .cread := by refine ⟨rfl, rfl, rfl, rfl⟩
theorem palBuild : Statement .palBuild := by refine ⟨rfl, rfl, rfl, rfl⟩
theorem palWrite : Statement .palWrite := by refine ⟨rfl, rfl, rfl, rfl⟩
theorem palRead : Statement .palRead := by refine ⟨rfl, rfl, rfl, rfl⟩

end Sys2Proof.Laws.CommandWord
end

