-- ==== Sys2Proof/Tests/Slice0.lean ====
section
/-! SUPPORT. Tests: ill-formed terms refused, words written out from the opcode map, and the worked vectors of
95_test_vectors.md, one step each. -/

namespace Sys2Proof.Tests

open Sys2Proof Sys2Proof.Machine

/-- A field of the next state, if there is one. -/
def after {α : Type} (f : State → α) : Host.Outcome State Fault Refusal → Option α
  | .next t => some (f t)
  | .fault _ => none
  | .refused _ => none

/-- Whether an outcome is a refusal for the given reason. -/
def refusedFor (r : Refusal) : Host.Outcome State Fault Refusal → Bool
  | .next _ => false
  | .fault _ => false
  | .refused r' => decide (r = r')

/-- RGB565 at 16 bits per pixel on a 4 x 2 surface at 0x1000 (95_test_vectors.md, common formats). -/
def rgb565 : OperandRegs :=
  { OperandRegs.reset with
    fbBase := 0x1000, fmt := 0x10, visSize := 0x00020004, virtSize := 0x00020004
    rfield := 0x0000050B, gfield := 0x00000605, bfield := 0x00000500 }

/-- XRGB8888 at 32 bits per pixel on a 4 x 2 surface at 0x2000. -/
def xrgb8888 : OperandRegs :=
  { rgb565 with fbBase := 0x2000, fmt := 0x20, rfield := 0x00000810, gfield := 0x00000808, bfield := 0x00000800 }

/-- RGB888 at 24 bits per pixel on a 4 x 2 surface at 0x3000. -/
def rgb888 : OperandRegs := { xrgb8888 with fbBase := 0x3000, fmt := 0x18 }

/-- 8 bits per pixel, indexed, on a 16 x 4 surface at 0x4000. -/
def idx8 : OperandRegs :=
  { rgb565 with
    fbBase := 0x4000, fmt := 0x108, visSize := 0x00040010, virtSize := 0x00040010
    rfield := 0x00000500, gfield := 0x00000600, bfield := 0x00000500 }

/-- The block after reset with the given RW registers and memory. -/
def block (o : OperandRegs) (m : Memory) : State := { State.reset with rw := o, mem := m }

/-- The step that runs a command word from a block with the given registers and memory. -/
def runWord (o : OperandRegs) (m : Memory) (w : Word) : Host.Outcome State Fault Refusal := step ((block o m).withCommand w)

/-! ## Ill-formed terms -/

theorem test_setXY_range : HostLine.wellFormed (.setXY 0x10000 0) = false ∧ HostLine.wellFormed (.setXY 0 0x10000) = false := by
  decide
theorem test_setRGB_range : HostLine.wellFormed (.setRGB 256 0 0) = false ∧ HostLine.wellFormed (.setRGB 0 256 0) = false ∧
    HostLine.wellFormed (.setRGB 0 0 256) = false := by decide
theorem test_setIdx_range : HostLine.wellFormed (.setIdx 256) = false := by decide
theorem test_field_range : HostLine.wellFormed (.field .red 32 0 0) = false ∧ HostLine.wellFormed (.field .red 0 16 0) = false ∧
    HostLine.wellFormed (.field .red 0 0 2) = false := by decide
theorem test_size_range : HostLine.wellFormed (.size .visible 0x10000 0) = false ∧
    HostLine.wellFormed (.size .virtual 0 0x10000) = false := by decide
theorem test_format_range : HostLine.wellFormed (.format 64 0) = false ∧ HostLine.wellFormed (.format 8 2) = false := by decide
theorem test_narrow_access_outside : registerAccessInside 0x24 1 = false ∧ registerAccessInside 0x25 4 = false ∧
    registerAccessInside 0x100 4 = false := by decide
theorem test_every_command_wellFormed (i : Instr) : i.wellFormed = true := by cases i <;> rfl

/-! ## Words of the opcode map, bit by bit (30_encoding.md R83) -/

theorem test_decode_encRep : decode 0b00000000000000000000000000000001 = .ok .encRep := by rfl
theorem test_decode_encCol : decode 0b00000000000000000000000000000010 = .ok .encCol := by rfl
theorem test_decode_encPal : decode 0b00000000000000000000000000000011 = .ok .encPal := by rfl
theorem test_decode_extract : decode 0b00000000000000000000000000000100 = .ok .extract := by rfl
theorem test_decode_setpixRep : decode 0b00000000000000000000000000010000 = .ok .setpixRep := by rfl
theorem test_decode_setpixCol : decode 0b00000000000000000000000000010001 = .ok .setpixCol := by rfl
theorem test_decode_setpixPal : decode 0b00000000000000000000000000010010 = .ok .setpixPal := by rfl
theorem test_decode_putraw : decode 0b00000000000000000000000000010011 = .ok .putraw := by rfl
theorem test_decode_getpix : decode 0b00000000000000000000000000010100 = .ok .getpix := by rfl
theorem test_decode_grabpix : decode 0b00000000000000000000000000010101 = .ok .grabpix := by rfl
theorem test_decode_cwrite : decode 0b00000000000000000000000000100000 = .ok .cwrite := by rfl
theorem test_decode_cread : decode 0b00000000000000000000000000100001 = .ok .cread := by rfl
theorem test_decode_palBuild : decode 0b00000000000000000000000000110000 = .ok .palBuild := by rfl
theorem test_decode_palWrite : decode 0b00000000000000000000000000110001 = .ok .palWrite := by rfl
theorem test_decode_palRead : decode 0b00000000000000000000000000110010 = .ok .palRead := by rfl
theorem test_decode_illegal : decode 0x00000105 = .error .reservedBitsSet ∧ decode 0x00000000 = .error (.unknownOpcode 0) ∧
    decode 0x000000FF = .error (.unknownOpcode 0xFF) ∧ decode 0x80000001 = .error .reservedBitsSet := by
  refine ⟨rfl, rfl, rfl, rfl⟩
theorem test_decodeTableWord : decodeTableWord 32 0x15 = some .grabpix ∧ decodeTableWord 8 0x115 = some .grabpix := by
  refine ⟨rfl, rfl⟩

/-! ## Commands (95_test_vectors.md sections 2 to 4) -/

theorem test_encRep_rgb565 : after (·.resultRaw) (runWord { rgb565 with color := 0x00030303 } [] 0x01) = some 0x2084 := by decide
theorem test_encRep_saturates : after (·.resultRaw) (runWord { xrgb8888 with color := 0x00FF0102 } [] 0x01) = some 0x00FF0102 := by
  decide
theorem test_encCol_rgb565 : after (·.resultRaw) (runWord { rgb565 with color := 0x00102008 } [] 0x02) = some 0x8408 := by decide
theorem test_encCol_wide : after (·.resultRaw)
    (runWord { rgb565 with rfield := 0xC00, gfield := 0, bfield := 0, color := 0x00FF0000 } [] 0x02) = some 0xFF := by decide
theorem test_encPal_index : after (·.resultRaw) (runWord { idx8 with color := 0xD2 } [] 0x03) = some 0xD2 := by decide
theorem test_encPal_bpp : after (·.statusWord) (runWord rgb565 [] 0x03) = some 0x00000342 := by decide
theorem test_extract_rgb565 : after (·.resultRgb) (runWord { rgb565 with rawIn := 0xFFFF } [] 0x04) = some 0x00F8FCF8 := by decide
theorem test_extract_msb : after (·.statusWord) (runWord { rgb565 with gfield := 0x00010605 } [] 0x04) = some 0x00000452 := by
  decide
theorem test_setpixRep_V1 : after (·.mem) (runWord { rgb565 with xy := 0x00010002, color := 0x00060000 }
    [(0x100B, 0xEE), (0x100C, 0xEE), (0x100D, 0xEE), (0x100E, 0xEE)] 0x10) =
    some [(0x100B, 0xEE), (0x100D, 0xF8), (0x100E, 0xEE)] := by decide
theorem test_setpixCol_V19 : after (·.mem) (runWord { rgb565 with rfield := 0x80B, color := 0x00FF0000 } [(0x1002, 0xEE)] 0x11) =
    some [(0x1001, 0xF8), (0x1002, 0xEE)] := by decide
theorem test_setpixCol_V9 : after (·.statusWord) (runWord { rgb565 with fbBase := 0x1001 } [] 0x11) = some 0x000011B2 := by decide
theorem test_setpixPal : after (·.mem) (runWord { idx8 with xy := 0x00020003, color := 0x6A } [] 0x12) = some [(0x4023, 0x6A)] := by
  decide
theorem test_setpixPal_V14 : after (·.statusWord) (runWord rgb565 [] 0x12) = some 0x00001242 := by decide
theorem test_putraw_24bpp : after (·.mem) (runWord { rgb888 with xy := 1, rawIn := 0xAABBCCDD } [(0x3002, 0xEE), (0x3006, 0xEE)]
    0x13) = some [(0x3002, 0xEE), (0x3003, 0xDD), (0x3004, 0xCC), (0x3005, 0xBB), (0x3006, 0xEE)] := by decide
theorem test_getpix_16bpp : after (·.resultRaw) (runWord rgb565 [(0x1001, 0xF8)] 0x14) = some 0x0000F800 := by decide
theorem test_getpix_V20 : after (·.statusWord) (runWord { rgb565 with fmt := 0x0C } [] 0x14) = some 0x00001422 := by decide
theorem test_grabpix_V4 : after (fun t => (t.resultRaw, t.resultRgb)) (runWord rgb565 [(0x1000, 0x21), (0x1001, 0x08)] 0x15) =
    some (0x00000821, 0x00080408) := by decide
theorem test_grabpix_V15 : after (·.statusWord) (runWord idx8 [] 0x15) = some 0x00001572 := by decide
theorem test_cwrite_V26 : after (·.mem) (runWord { rgb888 with fbBase := 0xFFFFFFFE, offset := 1, rawIn := 0x00ABCDEF } [] 0x20) =
    some [(0, 0xCD), (1, 0xAB), (0xFFFFFFFF, 0xEF)] := by decide
theorem test_cwrite_V22 : after (·.statusWord) (runWord { rgb888 with offset := 22 } [] 0x20) = some 0x000020A2 := by decide
theorem test_cread_24bpp : after (·.resultRaw) (runWord { rgb888 with offset := 21 } [(0x3015, 1), (0x3016, 2), (0x3017, 3),
    (0x3018, 0xEE)] 0x21) = some 0x00030201 := by decide
theorem test_cread_V23 : after (·.statusWord) (runWord { rgb565 with offset := 1 } [] 0x21) = some 0x000021B2 := by decide
theorem test_palBuild_P1 : after (fun t => [100, 101, 105, 106, 112, 118, 119, 200, 205].map (fun i => findKey i t.pal))
    (runWord idx8 [] 0x30) =
    some [some ⟨0, 0, 0⟩, some ⟨0x0800, 0, 0⟩, some ⟨0xFFFF, 0, 0⟩, some ⟨0, 0x0200, 0⟩, some ⟨0, 0xFFFF, 0⟩,
      some ⟨0, 0, 0xFFFF⟩, none, some ⟨0x0400, 0x0400, 0x0400⟩, some ⟨0xFFFF, 0xFFFF, 0xFFFF⟩] := by decide
theorem test_palBuild_P5 : after (fun t => (findKey 209 t.pal, findKey 210 t.pal, findKey 211 t.pal, findKey 212 t.pal))
    (runWord { idx8 with rfield := 0xC00, gfield := 0xC00, bfield := 0xC00, markerRgb := 0x123456 } [] 0x30) =
    some (some ⟨0x1000, 0x1000, 0x1000⟩, some ⟨0xFFFF, 0xFFFF, 0xFFFF⟩, some ⟨0, 0, 0⟩, some ⟨0x1200, 0x3400, 0x5600⟩) := by decide
theorem test_palWrite_P7 : after (·.pal) (runWord { idx8 with palIdx := 7, palRg := 0x56781234, palB := 0x9ABC } [] 0x31) =
    some [(7, ⟨0x1234, 0x5678, 0x9ABC⟩)] := by decide
theorem test_palRead_P7 : after (fun t => (t.rw.palRg, t.rw.palB))
    (step (({ block { idx8 with palIdx := 7 } [] with pal := [(7, ⟨0x1234, 0x5678, 0x9ABC⟩)] }).withCommand 0x32)) =
    some (0x56781234, 0x00009ABC) := by decide
theorem test_palRead_unwritten (e : BitVec 16) (h : Config.freeIntensity 2 = e) :
    after (fun t => (t.rw.palB, t.draws)) (runWord { idx8 with palIdx := 7 } [] 0x32) = some ((0 : BitVec 16) ++ e, 3) := by
  subst h
  rfl

/-! ## Control, faults and busy (95_test_vectors.md section 5) -/

theorem test_F1 : after (·.statusWord) (step (State.reset.withFetchWord 32 0x105)) = some 0x00000512 := by decide
theorem test_F3 : after (·.statusWord) (step (State.reset.withFetchWord 32 0xFF)) = some 0x0000FF12 := by decide
theorem test_F4 : after (·.statusWord) (step (State.reset.withFetchWord 32 0x10)) = some 0x00001022 := by decide

/-- The block of F4: E_BPP recorded at SETPIX_REP. -/
def faulted : State := { State.reset with status := { Status.reset with err := true, errcode := 2, errop := 0x10 } }

theorem test_F5 : after (fun t => (t.statusWord, t.engine)) (hostEvent (.regWrite 0x04 4 0x01) faulted) =
    some (0x00001022, .idle) := by decide
theorem test_F6 : after (·.rw.color) (hostEvent (.regWrite 0x24 4 5) faulted) = some 5 := by decide
theorem test_F7 : after (·.statusWord) (hostEvent (.regWrite 0x00 4 0xFFFFFFFF) faulted) = some 0x00001022 := by decide

/-- A block in which SETPIX_COL has been accepted. -/
def running : State := (block rgb565 []).withCommand 0x11

theorem test_F9 : after (fun t => (t.rw.color, t.statusWord)) (hostEvent (.regWrite 0x24 4 7) running) = some (0, 5) := by decide
theorem test_F9_clear : after (·.statusWord) (hostEvent (.regWrite 0x00 4 4) running.setOvr) = some 1 := by decide
theorem test_F11 : after (·.hostData) (hostEvent (.regRead 0x04 4) running) = some 0 := by decide
theorem test_F12 : after (·.hostData) (hostEvent (.regRead 0x80 4) running) = some 0 := by decide
theorem test_reserved_bits_discarded : after (·.rw.rfield) (hostEvent (.regWrite 0x18 4 0xFFFFFFFF) State.reset) =
    some 0x00010F1F := by decide
theorem test_narrow_refused : refusedFor (.registerAccessNotWord 2) (hostEvent (.regWrite 0x24 2 0) State.reset) = true := by
  decide
theorem test_command_write : after (fun t => (t.busy, t.operands)) (hostEvent (.regWrite 0x04 4 0x11) (block rgb565 [])) =
    some (true, rgb565) := by decide
theorem test_reset_keeps_memory : after (fun t => (t.mem, t.rw)) (hostEvent .reset (block rgb565 [(0x1000, 1)])) =
    some ([(0x1000, 1)], OperandRegs.reset) := by decide
theorem test_denied_write_sticks : after (fun t => (t.busy, t.mem)) (step { running with
    denied := [⟨.write, .b2, 0x1000, 0x1000⟩] }) = some (true, []) := by decide
theorem test_program1_line5 : (expandLine (.field .red 11 5 0)) = [.regWrite 0x18 4 0x0000050B] := by decide
theorem test_program1_line10 : (expandLine (.run .setpixCol)) = [.regWrite 0x04 4 0x00000011, .poll] := by decide

/-! ## Witnesses: a concrete state and operands that meet the hypotheses of each statement -/

/-- A block in which a command has been accepted. -/
def accepted (o : OperandRegs) (w : Word) : State := (block o []).withCommand w

/-- The flight of a command word at its start on a block with the given registers. -/
def flight (o : OperandRegs) (w : Word) : Flight := Flight.start w o

/-- The last visible pixel of the 4 x 2 surface. -/
def lastPixel (o : OperandRegs) : OperandRegs := { o with xy := 0x00010003 }

/-- 8 bits per pixel, not indexed. -/
def gray8 : OperandRegs := { idx8 with fmt := 0x008 }

/-- The outcome is a next state of which `p` holds. -/
def nextWith (p : State → Bool) : Host.Outcome State Fault Refusal → Bool
  | .next t => p t
  | .fault _ => false
  | .refused _ => false

/-- A PUTRAW of 24 bits whose second byte the memory does not admit. -/
def stuckSecond : State := { accepted rgb888 0x13 with denied := [⟨.write, .b1, 0x3001, 0x3001⟩] }

/-- A PUTRAW of 24 bits whose third byte the memory does not admit. -/
def stuckThird : State := { accepted rgb888 0x13 with denied := [⟨.write, .b1, 0x3002, 0x3002⟩] }

theorem test_witness_IllegalWordFaults : (accepted rgb565 0x105).engineMoves = true ∧
    (accepted rgb565 0x105).engine = .busy (flight rgb565 0x105) ∧ (0x105#32).extractLsb' 8 24 ≠ 0 ∧
    [0x00, 0x05, 0x0F, 0x16, 0x1F, 0x22, 0x2F, 0x33, 0xFF].all (fun w : Nat =>
      (accepted rgb565 (BitVec.ofNat 32 w)).engineMoves &&
        decide ((accepted rgb565 (BitVec.ofNat 32 w)).engine = .busy (flight rgb565 (BitVec.ofNat 32 w)))) = true := by decide
theorem test_witness_StepRunsDecodedCommand : (accepted rgb565 0x15).engineMoves = true ∧
    (accepted rgb565 0x15).engine = .busy (flight rgb565 0x15) ∧ decode (flight rgb565 0x15).cmd = .ok .grabpix := by
  refine ⟨rfl, rfl, rfl⟩
theorem test_witness_StepRunsFetchWord : decodeTableWord 32 0x32 = some .palRead := by rfl
theorem test_witness_StepTakesHostTurn : (State.reset.agenda = [] ∧ State.reset.engine = .idle) ∧
    (({ State.reset with agenda := [.poll] }).agenda = Event.poll :: [] ∧ State.busy { State.reset with agenda := [.poll] } = false) ∧
    (({ accepted rgb565 0x11 with agenda := [.engine] }).agenda = Event.engine :: [] ∧ Event.engine ≠ .poll) := by decide
theorem test_witness_ClampedCodeValue : 8 ≤ (⟨0, 8, false⟩ : ChannelField).len.toNat ∧
    8 ≤ (⟨31, 15, false⟩ : ChannelField).len.toNat := by decide
theorem test_witness_ExtractInvertsClampedCode :
    ((8 : BitVec 4).toNat ≤ 8 ∧ (24 : BitVec 5).toNat + (8 : BitVec 4).toNat ≤ 32 ∧ (255 : Byte).toNat ≤ 2 ^ (8 : BitVec 4).toNat - 1) ∧
    ((5 : BitVec 4).toNat ≤ 8 ∧ (0 : BitVec 5).toNat + (5 : BitVec 4).toNat ≤ 32 ∧ (31 : Byte).toNat ≤ 2 ^ (5 : BitVec 4).toNat - 1) := by
  decide
theorem test_witness_NormalizeLeftJustifies : (⟨24, 8, false⟩ : ChannelField).len.toNat ≤ 8 := by decide
theorem test_witness_EncPalWritesIndex : (accepted gray8 0x03).operands.bpp.toNat = 8 ∧
    (accepted idx8 0x03).operands.bpp.toNat = 8 := by decide
theorem test_witness_ExtractWritesIntensities : (accepted xrgb8888 0x04).operands.extractOk = true := by decide
theorem test_witness_ExtractInvertsEncCol :
    let s := block { rgb565 with color := 0x001F3F1F } []
    ∃ t u : State, s.engine = .idle ∧ s.rw.extractOk = true ∧
      (∀ c ∈ [s.rw.redField, s.rw.greenField, s.rw.blueField], c.off.toNat + c.len.toNat ≤ 32) ∧
      List.Pairwise (fun a b : ChannelField => a.off.toNat + a.len.toNat ≤ b.off.toNat ∨ b.off.toNat + b.len.toNat ≤ a.off.toNat)
        [s.rw.redField, s.rw.greenField, s.rw.blueField] ∧
      s.rw.colorR.toNat < 2 ^ s.rw.redField.len.toNat ∧ s.rw.colorG.toNat < 2 ^ s.rw.greenField.len.toNat ∧
      s.rw.colorB.toNat < 2 ^ s.rw.blueField.len.toNat ∧ exec .encCol s = .next t ∧
      exec .extract { t with rw := { t.rw with rawIn := t.resultRaw } } = .next u := by
  exact ⟨_, _, rfl, by decide, by decide, by decide, by decide, by decide, by decide, rfl, rfl⟩
theorem test_witness_SetpixStoresEncodedColour :
    [(gray8, Container.c8), (rgb565, .c16), (rgb888, .c24), (xrgb8888, .c32)].all (fun p =>
      let s := accepted (lastPixel p.1) 0x10
      s.mem.wf && s.atStart && s.operands.pixelOk p.2 && !s.operands.indexed &&
        s.admitsContainer .write p.2 (pixelAddr s.operands p.2)) = true := by decide
theorem test_witness_SetpixPalStoresIndex :
    [gray8, idx8].all (fun o =>
      let s := accepted (lastPixel o) 0x12
      s.mem.wf && s.atStart && s.operands.pixelOk .c8 && s.admitsContainer .write .c8 (pixelAddr s.operands .c8)) = true := by decide
theorem test_witness_PutrawStoresRawIn :
    [(idx8, Container.c8), (rgb565, .c16), (rgb888, .c24), (xrgb8888, .c32)].all (fun p =>
      let s := accepted (lastPixel p.1) 0x13
      s.mem.wf && s.atStart && s.operands.pixelOk p.2 && s.admitsContainer .write p.2 (pixelAddr s.operands p.2)) = true := by decide
theorem test_witness_CwriteStoresRawIn :
    [({ idx8 with offset := 63 }, Container.c8), ({ rgb565 with offset := 14 }, .c16), ({ rgb888 with offset := 21 }, .c24),
      ({ xrgb8888 with offset := 28 }, .c32)].all (fun p =>
      let s := accepted p.1 0x20
      s.mem.wf && s.atStart && s.operands.offsetOk p.2 && s.admitsContainer .write p.2 (offsetAddr s.operands)) = true := by decide
theorem test_witness_GetpixReadsContainer :
    [(idx8, Container.c8), (rgb565, .c16), (rgb888, .c24), (xrgb8888, .c32)].all (fun p =>
      let s := accepted (lastPixel p.1) 0x14
      s.atStart && s.operands.pixelOk p.2 && s.admitsContainer .read p.2 (pixelAddr s.operands p.2)) = true := by decide
theorem test_witness_GrabpixReadsIntensities :
    [(gray8, Container.c8), (rgb565, .c16), (rgb888, .c24), (xrgb8888, .c32)].all (fun p =>
      let s := accepted (lastPixel p.1) 0x15
      s.atStart && s.operands.pixelOk p.2 && !s.operands.indexed && s.operands.extractOk &&
        s.admitsContainer .read p.2 (pixelAddr s.operands p.2)) = true := by decide
theorem test_witness_CreadReadsContainer :
    [({ idx8 with offset := 63 }, Container.c8), ({ rgb565 with offset := 14 }, .c16), ({ rgb888 with offset := 21 }, .c24),
      ({ xrgb8888 with offset := 28 }, .c32)].all (fun p =>
      let s := accepted p.1 0x21
      s.atStart && s.operands.offsetOk p.2 && s.admitsContainer .read p.2 (offsetAddr s.operands)) = true := by decide
theorem test_witness_CreadReturnsCwrittenValue :
    [({ idx8 with offset := 63 }, Container.c8), ({ rgb888 with offset := 21, rawIn := 0xAABBCCDD }, .c24)].all (fun p =>
      let s := accepted p.1 0x20
      s.sound && s.atStart && s.operands.offsetOk p.2 && s.admitsContainer .write p.2 (offsetAddr s.operands) &&
        s.admitsContainer .read p.2 (offsetAddr s.operands)) = true := by decide
theorem test_witness_PixelContainerInsideSurface : (lastPixel rgb888).pixelOk .c24 = true ∧ (lastPixel xrgb8888).pixelOk .c32 = true := by
  decide
theorem test_witness_WritesStayInsideSurface :
    let s := accepted { rgb888 with rawIn := 0x01020304 } 0x13
    s.mem.wf = true ∧ (∃ t, exec .putraw s = .next t ∧ readByte t.mem 0x3002 ≠ readByte s.mem 0x3002) ∧
      readByte s.tick.mem 0x3000 ≠ readByte s.mem 0x3000 := by
  exact ⟨by decide, ⟨_, rfl, by decide⟩, by decide⟩
theorem test_witness_PalBuildInstallsRegions : (accepted idx8 0x30).atStart = true ∧ (block idx8 []).atStart = true ∧ 0 < 256 ∧
    255 < 256 := by decide
theorem test_witness_ColourRampIsThermometer : (15 : Nat) ≤ 15 ∧ (0 : Nat) < 15 ∧ ((1 : Nat) ≤ 1 ∧ 1 < 15) ∧ ((1 : Nat) ≤ 14 ∧ 14 < 15) ∧
    ((15 : Nat) + 1 ≤ 16 ∧ 16 < 15 + 1 + 15) ∧ ((15 : Nat) + 1 ≤ 30 ∧ 30 < 15 + 1 + 15) ∧
    ((15 : Nat) + 15 + 2 ≤ 32 ∧ 32 < 15 + 15 + 2 + 15) ∧ ((15 : Nat) + 15 + 2 ≤ 46 ∧ 46 < 15 + 15 + 2 + 15) := by decide
theorem test_witness_GrayRampIsThermometer : ((1 : Nat) ≤ 1 ∧ (1 : Nat) ≤ 16 ∧ 0 < 1) ∧ ((1 : Nat) ≤ 16 ∧ (16 : Nat) ≤ 16 ∧ 15 < 16) ∧
    ((1 : Nat) ≤ 16 ∧ (16 : Nat) ≤ 16 ∧ 0 < 16) := by decide
theorem test_witness_PalWriteInstallsEntry : (accepted { idx8 with palIdx := 255 } 0x31).atStart = true := by decide
theorem test_witness_PalReadReturnsEntry :
    let s := { accepted { idx8 with palIdx := 255 } 0x32 with pal := [(255, ⟨1, 2, 3⟩)] }
    findKey (s.operands.palIdx.toNat % 256) s.pal = some ⟨1, 2, 3⟩ := by decide
theorem test_witness_PalReadOfUnwrittenEntryCompletes :
    let s := { accepted { idx8 with palIdx := 0 } 0x32 with pal := [(255, ⟨1, 2, 3⟩)] }
    findKey (s.operands.palIdx.toNat % 256) s.pal = none := by decide
theorem test_witness_PalReadReturnsPalWritten :
    let s := accepted { idx8 with palIdx := 255, palRg := 0x00020001, palB := 3 } 0x31
    s.sound = true ∧ s.atStart = true := by decide
theorem test_witness_FaultsInPriorityOrder :
    ((accepted rgb565 0x13).commandIs .putraw = true ∧ firstFault (faultTable .putraw (accepted rgb565 0x13).operands) = none) ∧
    ((accepted { idx8 with fmt := 0x110 } 0x15).commandIs .grabpix = true ∧
      firstFault (faultTable .grabpix (accepted { idx8 with fmt := 0x110 } 0x15).operands) = some 3) ∧
    ((block { rgb565 with fbBase := 1 } []).commandIs .getpix = true ∧
      firstFault (faultTable .getpix (block { rgb565 with fbBase := 1 } []).operands) = some 11) := by decide
theorem test_witness_FaultsArePrecise : ∃ t, exec .extract (accepted { rgb565 with bfield := 0x900 } 0x04) = .next t ∧
    t.status ≠ (accepted { rgb565 with bfield := 0x900 } 0x04).status := ⟨_, rfl, by decide⟩
theorem test_witness_FaultStaysUntilReset :
    let s := { faulted with agenda := [.regWrite 0x04 4 0x01, .engine, .fbWrite 0 .b4 7, .poll] }
    s.sound = true ∧ s.status.err = true ∧ Event.reset ∉ s.agenda ∧ ∃ t, Host.Core.run Sys2Proof.core 5 s = .next t := by
  exact ⟨by decide, by decide, by decide, ⟨_, rfl⟩⟩
theorem test_witness_StuckAtFirstDeniedAccess : (stuckSecond.atStart = true ∧ stuckThird.atStart = true) ∧
    (stuckSecond.mem.wf = true ∧ stuckThird.mem.wf = true) ∧
    (∃ p t, planOf .putraw stuckSecond.operands = .ok p ∧ exec .putraw stuckSecond = .next t ∧
      (∃ f, t.engine = .busy f ∧ f.issued = 1) ∧ p.accesses = containerWrite .c24 0x3000 0) ∧
    (∃ p t, planOf .putraw stuckThird.operands = .ok p ∧ exec .putraw stuckThird = .next t ∧
      (∃ f, t.engine = .busy f ∧ f.issued = 2) ∧ p.accesses = containerWrite .c24 0x3000 0) ∧
    ∃ p t, planOf .putraw (accepted rgb888 0x13).operands = .ok p ∧ exec .putraw (accepted rgb888 0x13) = .next t ∧ t.busy = false := by
  exact ⟨by decide, by decide, ⟨_, _, rfl, rfl, ⟨_, rfl, rfl⟩, rfl⟩, ⟨_, _, rfl, rfl, ⟨_, rfl, rfl⟩, rfl⟩, ⟨_, _, rfl, rfl, rfl⟩⟩
theorem test_witness_StuckCommandHasNoFurtherEffect : stuckSecond.commandIs .putraw = true ∧
    ∃ t, exec .putraw stuckSecond = .next t ∧ t.busy = true := ⟨by decide, _, rfl, rfl⟩
theorem test_witness_WholeCommandIsAccessesInTurn :
    (∃ t, (accepted rgb888 0x13).engine = .busy (flight rgb888 0x13) ∧ decode (flight rgb888 0x13).cmd = .ok .putraw ∧
      exec .putraw (accepted rgb888 0x13) = .next t) ∧
    ∃ t, ({ accepted rgb888 0x13 with engine := .busy { flight rgb888 0x13 with issued := 3 } }).engine =
        .busy { flight rgb888 0x13 with issued := 3 } ∧
      exec .putraw { accepted rgb888 0x13 with engine := .busy { flight rgb888 0x13 with issued := 3 } } = .next t := by
  exact ⟨⟨_, rfl, rfl, rfl⟩, ⟨_, rfl, rfl⟩⟩
theorem test_witness_RegisterWritesDoNotDisturbCommand : (accepted rgb888 0x13).engine = .busy (flight rgb888 0x13) ∧
    decode (flight rgb888 0x13).cmd = .ok .putraw ∧
    (∀ p ∈ [(0x00, 4#32), (0x04, 0x30#32), (0x2C, 5#32), (0xFC, 1#32)], p.1 % 4 = 0 ∧ p.1 < 0x100) ∧
    ∃ t, exec .putraw { accepted rgb888 0x13 with agenda := [] } = .next t := ⟨rfl, rfl, by decide, _, rfl⟩
theorem test_witness_ResetLeavesCompletedBytes :
    let s := accepted { lastPixel rgb888 with rawIn := 0x00AABBCC } 0x13
    s.mem.wf = true ∧ s.engine = .busy (flight { lastPixel rgb888 with rawIn := 0x00AABBCC } 0x13) ∧ s.atStart = true ∧
      s.operands.pixelOk .c24 = true ∧ s.admitsContainer .write .c24 (pixelAddr s.operands .c24) = true ∧ 0 ≤ 3 ∧ 3 ≤ 3 := by decide
theorem test_witness_RacingReadReturnsOldOrNew :
    let s := accepted rgb888 0x13
    let f := flight rgb888 0x13
    (s.mem.wf = true ∧ s.engine = .busy f ∧ s.atStart = true) ∧
      (f.writeRace 0x3000 Width.b1.bytes = true ∧ f.writeRace 0x3001 Width.b2.bytes = true ∧
        f.writeRace 0x2FFF Width.b4.bytes = true ∧ f.writeRace 0x3003 Width.b4.bytes = false) ∧
      (writeCovering 0x3000 0 f.accesses).map (·.1) = some 0 ∧ (writeCovering 0x3002 0 f.accesses).map (·.1) = some 2 ∧
      writeCovering 0x2FFF 0 f.accesses = none ∧
      (∃ g, (State.tick^[2] s).engine = .busy g ∧ g.issued = 2 ∧ g.writeRace 0x3000 Width.b4.bytes = true) ∧
      ∃ g, (State.tick^[3] s).engine = .busy g ∧ g.issued = 3 := by
  exact ⟨by decide, by decide, by decide, by decide, by decide, ⟨_, rfl, rfl, rfl⟩, ⟨_, rfl, rfl⟩⟩
theorem test_witness_RacingWriteLeavesEitherByte :
    let f : Flight := { flight rgb888 0x13 with issued := 1 }
    let s := { accepted rgb888 0x13 with engine := .busy f }
    s.mem.wf = true ∧ s.engine = .busy f ∧ (∃ v, writeCovering 0x3000 0 f.accesses = some (0, v)) ∧ 0 < f.issued ∧
      ∃ t, hostEvent (.fbWrite 0x3000 .b1 7) s = .next t := by
  exact ⟨by decide, rfl, ⟨_, rfl⟩, by decide, ⟨_, rfl⟩⟩
theorem test_witness_RacedGetpixReturnsEitherByte :
    let s := accepted (lastPixel idx8) 0x14
    s.mem.wf = true ∧ s.engine = .busy (flight (lastPixel idx8) 0x14) ∧ s.atStart = true ∧
      (flight (lastPixel idx8) 0x14).ops.pixelOk .c8 = true ∧
      s.admitsContainer .read .c8 (pixelAddr (lastPixel idx8) .c8) = true ∧
      ∃ t, hostEvent (.fbWrite (pixelAddr (lastPixel idx8) .c8) .b1 7) s = .next t := by
  exact ⟨by decide, rfl, by decide, by decide, by decide, ⟨_, rfl⟩⟩
theorem test_witness_RegisterMapOffsets : 0x4C ≤ 0x4C ∧ 0x4C ≤ 0xFC ∧ regAt 0x48 = some .palB := by decide
theorem test_witness_WindowOffsetFromBase : 0 < 0x100 ∧ 0xFF < 0x100 := by decide
theorem test_witness_NarrowRegisterAccessRefused : ¬ (2 = 4 ∧ 0x24 % 4 = 0 ∧ 0x24 < 0x100) ∧ ¬ (4 = 4 ∧ 0x25 % 4 = 0 ∧ 0x25 < 0x100) ∧
    ¬ (4 = 4 ∧ 0x100 % 4 = 0 ∧ 0x100 < 0x100) ∧ (4 = 4 ∧ 0xFC % 4 = 0 ∧ 0xFC < 0x100) := by decide
theorem test_witness_ReservedOffsetsInert : (0x4C ≤ 0x4C ∧ 0x4C ≤ 0xFC ∧ 0x4C % 4 = 0) ∧ (0x4C ≤ 0xFC ∧ 0xFC ≤ 0xFC ∧ 0xFC % 4 = 0) := by
  decide
theorem test_witness_RegisterWriteThenRead : (RegName.fbBase, 0xFFFFFFFF) ∈ rwRegisters ∧ (RegName.palB, 0xFFFF) ∈ rwRegisters ∧
    State.reset.busy = false ∧ faulted.busy = false := by decide
theorem test_witness_BusyWriteDroppedSetsOvr : running.busy = true ∧ running.status.err = false ∧
    (RegName.fbBase, 0xFFFFFFFF) ∈ rwRegisters ∧ (0x4C ≤ 0x4C ∧ 0x4C ≤ 0xFC ∧ 0x4C % 4 = 0) := by decide
theorem test_witness_CommandWriteStartsCommand : faulted.status.err = true ∧ (running.status.err = false ∧ running.busy = true) ∧
    (State.reset.status.err = false ∧ State.reset.busy = false) ∧ 0x30#32 = encode .palBuild := by decide
theorem test_witness_RegisterReadHasNoSideEffect : State.reset.busy = false ∧
    RegName.status ∉ [RegName.resultRaw, .resultRgb, .palRg, .palB] := by decide
theorem test_witness_BusyResultReadIsUnspecified : running.busy = true ∧
    RegName.resultRaw ∈ [RegName.resultRaw, .resultRgb, .palRg, .palB] ∧
    RegName.palB ∈ [RegName.resultRaw, .resultRgb, .palRg, .palB] := by decide
theorem test_witness_PollWaitsForEngine :
    (({ running with agenda := [.poll, .poll] }).agenda = .poll :: [.poll] ∧
      State.busy { running with agenda := [.poll, .poll] } = true) ∧
    (({ faulted with agenda := [.poll] }).agenda = .poll :: [] ∧ State.busy { faulted with agenda := [.poll] } = false) := by decide
theorem test_witness_NotationSetsFields : State.reset.busy = false ∧ HostLine.wellFormed (.setXY 0xFFFF 0xFFFF) = true ∧
    HostLine.wellFormed (.setRGB 255 255 255) = true ∧ HostLine.wellFormed (.setIdx 255) = true ∧
    HostLine.wellFormed (.field .blue 31 15 1) = true ∧ HostLine.wellFormed (.size .visible 0xFFFF 0xFFFF) = true ∧
    HostLine.wellFormed (.size .virtual 0xFFFF 0xFFFF) = true ∧ HostLine.wellFormed (.format 63 1) = true := by decide
theorem test_witness_UnconfiguredContainerCommandFaults :
    Instr.encPal ∈ [Instr.encPal, .setpixRep, .setpixCol, .setpixPal, .putraw, .getpix, .grabpix, .cwrite, .cread] := by decide
theorem test_witness_EveryStepKeepsSound : running.sound = true ∧ (∃ t, step running = .next t) ∧
    ({ running with agenda := [.reset] }).sound = true ∧ ∃ t, step { running with agenda := [.reset] } = .next t := by
  exact ⟨by decide, ⟨_, rfl⟩, by decide, ⟨_, rfl⟩⟩
theorem test_witness_HostAccessesWithoutRace :
    let f := flight rgb888 0x13
    let g := flight (lastPixel idx8) 0x14
    State.reset.mem.wf = true ∧ State.reset.engine = .idle ∧ (accepted rgb888 0x13).mem.wf = true ∧
      (accepted rgb888 0x13).engine = .busy f ∧ (f.writeRace 0x2FFC Width.b4.bytes = false ∧ f.readRace 0x2FFC Width.b4.bytes = false) ∧
      (f.writeRace 0x3003 Width.b1.bytes = false ∧ f.readRace 0x3003 Width.b1.bytes = false) ∧
      (accepted (lastPixel idx8) 0x14).mem.wf = true ∧ (accepted (lastPixel idx8) 0x14).engine = .busy g ∧
      g.writeRace (pixelAddr (lastPixel idx8) .c8) Width.b1.bytes = false := by decide
theorem test_host_access_from_idle :
    after (·.mem) (hostEvent (.fbWrite 0x5000 .b2 0xAABB) State.reset) = some [(0x5000, 0xBB), (0x5001, 0xAA)] ∧
      after (·.hostData) (hostEvent (.fbRead 0x4FFF .b4) { State.reset with mem := [(0x5000, 0xBB), (0x5001, 0xAA)] }) =
        some 0x00AABB00 := by decide

end Sys2Proof.Tests
end

/-! # The scope of the block (00_scope.md): whose turn a step is, and where the register window lies -/

namespace Sys2Proof.Machine

/-! ## Whose turn a step is (R5, R216; log 1) -/

theorem engineMoves_of_agenda_nil {s : State} (ha : s.agenda = []) : s.engineMoves = true := by
  unfold State.engineMoves
  rw [ha]

/-- With an event to come, the engine moves only behind a POLL that waits for BUSY to fall (R87). -/
theorem engineMoves_iff_of_agenda_cons {s : State} {e : Event} {rest : List Event} (ha : s.agenda = e :: rest) :
    s.engineMoves = true ↔ e = .poll ∧ s.busy = true := by
  unfold State.engineMoves
  rw [ha]
  cases e <;> simp

theorem step_of_engineMoves {s : State} (hm : s.engineMoves = true) : step s = engineTurn s := by
  obtain ⟨-, hstep⟩ | ⟨e, rest, hhost, -, -⟩ := step_cases s
  · exact hstep
  · simp [hm] at hhost

theorem step_of_hostMoves {s : State} {e : Event} {rest : List Event} (ha : s.agenda = e :: rest)
    (hm : ¬ s.engineMoves = true) : step s = hostEvent e { s with agenda := rest } := by
  obtain ⟨hengine, -⟩ | ⟨e', rest', -, ha', hstep⟩ := step_cases s
  · exact absurd hengine hm
  · obtain ⟨rfl, rfl⟩ := List.cons.inj (ha.symm.trans ha')
    exact hstep

theorem engineTurn_of_idle {s : State} (hidle : s.engine = .idle) : engineTurn s = .next s := by
  unfold engineTurn
  rw [hidle]

/-- Settles O6: an empty agenda gives the step to an engine that has nothing to do, and an event that is no waiting POLL
takes the step from the engine. -/
theorem stepTakesHostTurn : Obligations.StepTakesHostTurn := by
  unfold Obligations.StepTakesHostTurn
  constructor
  · intro s ha hidle
    rw [step_of_engineMoves (engineMoves_of_agenda_nil ha), engineTurn_of_idle hidle]
  · intro s e rest ha hhost
    have hm : ¬ s.engineMoves = true := by
      rw [engineMoves_iff_of_agenda_cons ha]
      rintro ⟨hpoll, hbusy⟩
      obtain hne | hfree := hhost
      · exact hne hpoll
      · simp [hbusy] at hfree
    exact step_of_hostMoves ha hm

/-! ## The register window (R6, R22; log 10) -/

/-- `REG_BASE` is a number of whole windows of 0x100 bytes. -/
theorem regBase_toNat : Config.regBase.toNat = Config.regBasePage.toNat * 0x100 := by
  have hlow : (0 : BitVec 8).toNat = 0 := rfl
  rw [Config.regBase, BitVec.toNat_append, hlow, Nat.or_zero, Nat.shiftLeft_eq]

theorem windowOffset_regBase_add (d : Word) : windowOffset (Config.regBase + d) = d.toNat := by
  rw [windowOffset, BitVec.add_comm, BitVec.add_sub_cancel]

/-- Settles O45: `REG_BASE` is a multiple of 0x100, and subtracting it from a bus address of the window leaves the offset, which
32 bits hold. -/
theorem windowOffsetFromBase : Obligations.WindowOffsetFromBase := by
  unfold Obligations.WindowOffsetFromBase
  constructor
  · rw [regBase_toNat, Nat.mul_mod_left]
  · intro off hoff
    have hfits : off < 2 ^ 32 := by omega
    rw [windowOffset_regBase_add, BitVec.toNat_ofNat, Nat.mod_eq_of_lt hfits]

end Sys2Proof.Machine

/-! # The register window (10_state.md R22 to R28, R37, R38, R73) -/

namespace Sys2Proof.Machine

/-! ## The register map (R22, R23) -/

/-- The register map read both ways: a register stands at its own offset and at no other. -/
theorem regAt_eq_some_iff (off : Nat) (r : RegName) : regAt off = some r ↔ off = regOffset r := by
  constructor
  · intro h
    unfold regAt at h
    split at h <;> cases h <;> rfl
  · rintro rfl
    cases r <;> rfl

theorem regAt_regOffset (r : RegName) : regAt (regOffset r) = some r := (regAt_eq_some_iff _ r).2 rfl

/-- The last register of the map is `PAL_B`. -/
theorem regOffset_le (r : RegName) : regOffset r ≤ 0x48 := by cases r <;> decide

theorem regAt_of_reserved {off : Nat} (h : 0x4C ≤ off) : regAt off = none := by
  cases hr : regAt off with
  | none => rfl
  | some r =>
    have hoff := (regAt_eq_some_iff off r).1 hr
    have hle := regOffset_le r
    omega

theorem regOffset_inside (r : RegName) : registerAccessInside (regOffset r) 4 = true := by cases r <;> rfl

/-- Settles O44: `regAt` inverts `regOffset`, and every offset of the map is at most 0x48. -/
theorem registerMapOffsets : Obligations.RegisterMapOffsets := by
  unfold Obligations.RegisterMapOffsets
  exact ⟨regAt_eq_some_iff, rfl, rfl, rfl, rfl, rfl, rfl, rfl, rfl, rfl, rfl, rfl, rfl, rfl, rfl, rfl, rfl, rfl, rfl, rfl,
    fun _ => regAt_of_reserved⟩

/-! ## What a register access in the interface does (R22, R80) -/

theorem hostRegWrite_of_inside (s : State) {off : Nat} (v : Word) (h : registerAccessInside off 4 = true) :
    s.hostRegWrite off 4 v = .next (((regAt off).map (s.writeRegister · v)).getD s) := by
  unfold State.hostRegWrite
  rw [(registerAccessRefusal_none off 4).2 h]
  cases regAt off <;> rfl

theorem hostRegRead_of_inside (s : State) {off : Nat} (h : registerAccessInside off 4 = true) :
    s.hostRegRead off 4 = .next (((regAt off).map s.readRegister).getD { s with hostData := 0 }) := by
  unfold State.hostRegRead
  rw [(registerAccessRefusal_none off 4).2 h]
  cases regAt off <;> rfl

theorem hostWrites_eq (s : State) (r : RegName) (v : Word) : hostWrites s r v = .next (s.writeRegister r v) := by
  simp only [hostWrites, hostEvent, hostRegWrite_of_inside s v (regOffset_inside r), regAt_regOffset, Option.map_some,
    Option.getD_some]

theorem hostReads_eq (s : State) (r : RegName) : hostReads s r = .next (s.readRegister r) := by
  simp only [hostReads, hostEvent, hostRegRead_of_inside s (regOffset_inside r), regAt_regOffset, Option.map_some,
    Option.getD_some]

theorem registerAccessInside_of_aligned {off : Nat} (hhi : off ≤ 0xFC) (hmul : off % 4 = 0) :
    registerAccessInside off 4 = true := by
  simp only [registerAccessInside, hmul, decide_true, Bool.true_and, decide_eq_true_eq]
  omega

theorem regWrite_reserved (s : State) {off : Nat} (v : Word) (hlo : 0x4C ≤ off) (hhi : off ≤ 0xFC) (hmul : off % 4 = 0) :
    hostEvent (.regWrite off 4 v) s = .next s := by
  simp only [hostEvent, hostRegWrite_of_inside s v (registerAccessInside_of_aligned hhi hmul), regAt_of_reserved hlo,
    Option.map_none, Option.getD_none]

theorem regRead_reserved (s : State) {off : Nat} (hlo : 0x4C ≤ off) (hhi : off ≤ 0xFC) (hmul : off % 4 = 0) :
    hostEvent (.regRead off 4) s = .next { s with hostData := 0 } := by
  simp only [hostEvent, hostRegRead_of_inside s (registerAccessInside_of_aligned hhi hmul), regAt_of_reserved hlo,
    Option.map_none, Option.getD_none]

/-! ## What a write of each kind of register does (R22, R24, R27) -/

@[simp] theorem writeRegister_status (s : State) (v : Word) : s.writeRegister .status v = s.writeStatus v := rfl
@[simp] theorem writeRegister_cmd (s : State) (v : Word) : s.writeRegister .cmd v = s.writeCommand v := rfl

/-- The result registers are read-only (R22). -/
theorem hostWrites_resultRaw (s : State) (v : Word) : hostWrites s .resultRaw v = .next s := hostWrites_eq s .resultRaw v

theorem hostWrites_resultRgb (s : State) (v : Word) : hostWrites s .resultRgb v = .next s := hostWrites_eq s .resultRgb v

/-- The RW registers of R23 are all but `STATUS`, `CMD` and the two result registers, and the model stores the bits that R29 to
R41 give them. -/
theorem storedBits_of_mem_rwRegisters : ∀ p ∈ rwRegisters,
    p.1 ∉ [RegName.status, .cmd, .resultRaw, .resultRgb] ∧ storedBits p.1 = p.2 := by decide

section RWRegister

variable {r : RegName} (hrw : r ∉ [RegName.status, .cmd, .resultRaw, .resultRgb])
include hrw

theorem writeRegister_of_rw (s : State) (v : Word) :
    s.writeRegister r v = if s.busy then s.setOvr else { s with rw := s.rw.store r (v &&& storedBits r) } := by
  cases r <;> simp at hrw <;> rfl

theorem registerValue_store_same (s : State) (w : Word) :
    ({ s with rw := s.rw.store r w } : State).registerValue r = w := by
  cases r <;> simp at hrw <;> rfl

end RWRegister

theorem registerValue_store_of_ne {r r' : RegName} (s : State) (w : Word) (hne : r' ≠ r) :
    ({ s with rw := s.rw.store r w } : State).registerValue r' = s.registerValue r' := by
  cases r <;> cases r' <;> trivial

/-! ## What a register read does (R23, R37, R38, R73, R237) -/

theorem resultHazard_iff (r : RegName) :
    resultHazard r = true ↔ r ∈ [RegName.resultRaw, .resultRgb, .palRg, .palB] := by
  cases r <;> decide

theorem readRegister_of_no_hazard (s : State) {r : RegName} (h : s.busy = false ∨ resultHazard r = false) :
    s.readRegister r = { s with hostData := s.registerValue r } := by
  have hcond : (s.busy && resultHazard r) = false := Bool.and_eq_false_iff.2 h
  simp [State.readRegister, hcond]

theorem hostReads_of_no_hazard (s : State) {r : RegName} (h : s.busy = false ∨ resultHazard r = false) :
    hostReads s r = .next { s with hostData := s.registerValue r } := by
  rw [hostReads_eq, readRegister_of_no_hazard s h]

/-! ## The statements about the register window -/

/-- Settles O47: a result register has no arm that stores, and past 0x48 the map names no register. -/
theorem reservedOffsetsInert : Obligations.ReservedOffsetsInert := by
  unfold Obligations.ReservedOffsetsInert
  intro s v
  refine ⟨hostWrites_resultRaw s v, hostWrites_resultRgb s v, fun off hlo hhi hmul => ?_⟩
  exact ⟨regWrite_reserved s v hlo hhi hmul, regRead_reserved s hlo hhi hmul⟩

/-- Settles O48: the store keeps the unreserved bits, the read finds them, and every other register is untouched. -/
theorem registerWriteThenRead : Obligations.RegisterWriteThenRead := by
  unfold Obligations.RegisterWriteThenRead
  intro s p v hp hidle
  obtain ⟨hrw, hbits⟩ := storedBits_of_mem_rwRegisters p hp
  refine ⟨{ s with rw := s.rw.store p.1 (v &&& p.2) }, ?_, rfl, ?_, fun r hne => registerValue_store_of_ne s _ hne⟩
  · rw [hostWrites_eq, writeRegister_of_rw hrw, hidle, hbits]
    rfl
  · rw [hostReads_of_no_hazard, registerValue_store_same hrw]
    exact .inl hidle

/-- Settles O49: while BUSY = 1 the only effect left to a write of `CMD` or an RW register is OVR. -/
theorem busyWriteDroppedSetsOvr : Obligations.BusyWriteDroppedSetsOvr := by
  unfold Obligations.BusyWriteDroppedSetsOvr
  intro s v hbusy hok
  refine ⟨?cmd, ?rw, hostWrites_resultRaw s v, hostWrites_resultRgb s v,
    fun off hlo hhi hmul => regWrite_reserved s v hlo hhi hmul⟩
  case cmd =>
    rw [hostWrites_eq, writeRegister_cmd, State.writeCommand, hok, hbusy]
    rfl
  case rw =>
    intro p hp
    obtain ⟨hrw, -⟩ := storedBits_of_mem_rwRegisters p hp
    rw [hostWrites_eq, writeRegister_of_rw hrw, hbusy]
    rfl

/-- Settles O52: outside the result hazard a read copies the register's value to the host and does nothing more. -/
theorem registerReadHasNoSideEffect : Obligations.RegisterReadHasNoSideEffect := by
  unfold Obligations.RegisterReadHasNoSideEffect
  refine ⟨fun s r h => ?_, fun s hidle => ⟨hostReads_of_no_hazard s (.inl hidle), hostReads_of_no_hazard s (.inl hidle)⟩⟩
  have hread : s.busy = false ∨ resultHazard r = false := by
    rwa [← resultHazard_iff, Bool.not_eq_true] at h
  rw [hostReads_of_no_hazard s hread]
  split
  · next hcmd => rw [hcmd]; rfl
  · rfl

/-! ## The value of `STATUS` (R24) -/

/-- Concatenated fields, as a number. -/
theorem toNat_append_eq_add {m n : Nat} (x : BitVec m) (y : BitVec n) : (x ++ y).toNat = x.toNat * 2 ^ n + y.toNat := by
  rw [BitVec.toNat_append, ← Nat.shiftLeft_add_eq_or_of_lt y.isLt, Nat.shiftLeft_eq]

theorem statusWord_toNat (s : State) :
    s.statusWord.toNat = s.busy.toNat + 2 * s.status.err.toNat + 4 * s.status.ovr.toNat +
      2 ^ 4 * s.status.errcode.toNat + 2 ^ 8 * s.status.errop.toNat := by
  simp only [State.statusWord, toNat_append_eq_add, BitVec.toNat_ofBool, BitVec.ofNat_eq_ofNat, BitVec.toNat_ofNat]
  omega

/-- Bit 2 of a word, as a number. -/
theorem getLsbD_two_iff (v : Word) : v.getLsbD 2 = true ↔ v.toNat / 4 % 2 = 1 := by
  rw [← BitVec.testBit_toNat, Nat.testBit_eq_decide_div_mod_eq, decide_eq_true_iff]

/-- Settles O50: the fields of `STATUS` by their weights, and a write of it by its bit 2 alone. -/
theorem statusFieldsAndWrite : Obligations.StatusFieldsAndWrite := by
  unfold Obligations.StatusFieldsAndWrite
  intro s v
  refine ⟨statusWord_toNat s, ?_⟩
  simp only [hostWrites_eq, writeRegister_status, State.writeStatus, getLsbD_two_iff]

end Sys2Proof.Machine

/-! # The invariant of the block: every step keeps it (R22, R24, R38, R82, R201, R206) -/

namespace Sys2Proof.Machine

/-- The six parts of `State.sound`, by name. -/
structure State.IsSound (s : State) : Prop where
  mem : s.mem.wf = true
  pal : s.pal.wf = true
  rw : s.rw.reservedZero = true
  rgb : s.resultRgb &&& ~~~(storedBits .resultRgb) = 0
  status : s.status.sound = true
  engine : s.engineSound = true

theorem sound_iff (s : State) : s.sound = true ↔ s.IsSound := by
  simp only [State.sound, Bool.and_eq_true, decide_eq_true_eq]
  constructor
  · rintro ⟨⟨⟨⟨⟨hmem, hpal⟩, hrw⟩, hrgb⟩, hstatus⟩, hengine⟩
    exact ⟨hmem, hpal, hrw, hrgb, hstatus, hengine⟩
  · rintro ⟨hmem, hpal, hrw, hrgb, hstatus, hengine⟩
    exact ⟨⟨⟨⟨⟨hmem, hpal⟩, hrw⟩, hrgb⟩, hstatus⟩, hengine⟩

/-! ## The parts of the invariant -/

theorem engineSound_of_idle {s : State} (hidle : s.engine = .idle) : s.engineSound = true := by
  simp only [State.engineSound, hidle]

theorem engineSound_iff_of_busy {s : State} {f : Flight} (hbusy : s.engine = .busy f) :
    s.engineSound = true ↔ s.status.err = false ∧ f.ops = s.rw := by
  simp [State.engineSound, hbusy]

/-- A fault code is one of 1 to 11 (R201). -/
theorem faultStatus_sound (c : FaultCode) (ovr : Bool) (op : BitVec 8) :
    Status.sound { err := true, ovr := ovr, errcode := c.number, errop := op } = true := by
  cases c <;> rfl

/-- What is masked for storing has its reserved bits 0 (R22). -/
theorem masked_reserved (v m : Word) : v &&& m &&& ~~~m = 0 := by
  rw [BitVec.and_assoc, BitVec.and_not_self]
  exact BitVec.and_zero

theorem store_reservedZero {o : OperandRegs} (h : o.reservedZero = true) (r : RegName) (v : Word) :
    (o.store r (v &&& storedBits r)).reservedZero = true := by
  simp only [OperandRegs.reservedZero, Bool.and_eq_true, decide_eq_true_eq] at h ⊢
  cases r <;> simp only [OperandRegs.store, masked_reserved, h, and_self]

/-- A word below `2 ^ n` has no bit at `n` or above. -/
theorem and_not_lowMask {n : Nat} (x : Word) (h : x.toNat < 2 ^ n) : x &&& ~~~((BitVec.allOnes n).setWidth 32) = 0 := by
  ext i hi
  simp only [BitVec.getElem_and, BitVec.getElem_not, BitVec.getElem_setWidth, BitVec.getLsbD_allOnes]
  by_cases hin : i < n
  · simp [hin]
  · have hbit : x.getLsbD i = false := by
      rw [← BitVec.testBit_toNat]
      exact Nat.testBit_lt_two_pow (h.trans_le (Nat.pow_le_pow_right (by omega) (by omega)))
    simp [← BitVec.getLsbD_eq_getElem, hbit]

/-- The three intensities of `RESULT_RGB`, as a number (R38). -/
theorem packRgb_toNat (r g b : Byte) : (packRgb r g b).toNat = r.toNat * 2 ^ 16 + g.toNat * 2 ^ 8 + b.toNat := by
  simp only [packRgb, toNat_append_eq_add, BitVec.ofNat_eq_ofNat, BitVec.toNat_ofNat]
  omega

theorem packRgb_reserved (r g b : Byte) : packRgb r g b &&& ~~~(storedBits .resultRgb) = 0 := by
  have hlt : (packRgb r g b).toNat < 2 ^ 24 := by
    rw [packRgb_toNat]
    omega
  exact and_not_lowMask _ hlt

/-- `PAL_B` as PAL_READ writes it (R178): the blue intensity below 16 zero bits. -/
theorem palB_reserved (blue : Intensity) : ((0 : BitVec 16) ++ blue : Word) &&& ~~~(storedBits .palB) = 0 := by
  have hlt : ((0 : BitVec 16) ++ blue : Word).toNat < 2 ^ 16 := by
    simp only [toNat_append_eq_add, BitVec.ofNat_eq_ofNat, BitVec.toNat_ofNat]
    omega
  exact and_not_lowMask _ hlt

/-! ## What each state operation keeps of it -/

theorem raiseFault_isSound {s : State} (h : s.IsSound) (c : FaultCode) (op : BitVec 8) : (s.raiseFault c op).IsSound :=
  { h with status := faultStatus_sound c _ op, engine := rfl }

theorem reset_reservedZero : OperandRegs.reset.reservedZero = true := by decide

theorem resetBlock_isSound {s : State} (h : s.IsSound) : s.resetBlock.IsSound :=
  { mem := h.mem, pal := rfl, rw := reset_reservedZero, rgb := BitVec.zero_and, status := rfl, engine := rfl }

theorem applyResult_rw_reservedZero {s : State} (h : s.IsSound) (r : Result) (d : Word) :
    (s.applyResult r d).rw.reservedZero = true := by
  cases r
  case palEntry idx =>
    have hrw := h.rw
    simp only [OperandRegs.reservedZero, Bool.and_eq_true] at hrw ⊢
    obtain ⟨hothers, -⟩ := hrw
    exact ⟨hothers, decide_eq_true (palB_reserved _)⟩
  all_goals exact h.rw

/-! ## Every plan writes a packed triple to `RESULT_RGB`, if anything (R38, R109) -/

/-- A value that a plan's result writes to `RESULT_RGB` as it stands is three packed intensities. -/
def Result.Packed (r : Result) : Prop := ∀ v, r = .rgb v → ∃ x y z, v = packRgb x y z

/-- A command that passes its checks has such a result. -/
def PlansPacked (x : Except FaultCode Plan) : Prop := ∀ p, x = .ok p → p.result.Packed

theorem plansPacked_ok {p : Plan} (h : p.result.Packed) : PlansPacked (.ok p) := by
  rintro q ⟨⟩
  exact h

/-- The checks before a plan do not matter to what it writes. -/
theorem plansPacked_bind {α : Type} {x : Except FaultCode α} {g : α → Except FaultCode Plan}
    (h : ∀ a, PlansPacked (g a)) : PlansPacked (x >>= g) := by
  intro p hp
  obtain ⟨a, -, hg⟩ := (bind_ok x g p).1 hp
  exact h a p hg

theorem planOf_packed (i : Instr) (o : OperandRegs) : PlansPacked (planOf i o) := by
  have other {p : Plan} (h : ∀ v, p.result ≠ .rgb v) : PlansPacked (.ok p) := plansPacked_ok fun v hv => absurd hv (h v)
  cases i
  case extract => exact plansPacked_bind fun _ => plansPacked_ok fun _ hv => ⟨_, _, _, (Result.rgb.inj hv).symm⟩
  case encRep | encCol | palBuild | palWrite | palRead => exact other nofun
  case encPal => exact plansPacked_bind fun _ => plansPacked_bind fun _ => other nofun
  case putraw | getpix | cwrite | cread => exact plansPacked_bind fun _ => plansPacked_bind fun _ => other nofun
  case setpixRep | setpixCol | setpixPal =>
    exact plansPacked_bind fun _ => plansPacked_bind fun _ => plansPacked_bind fun _ => other nofun
  case grabpix =>
    exact plansPacked_bind fun _ => plansPacked_bind fun _ => plansPacked_bind fun _ => plansPacked_bind fun _ => other nofun

/-! ## What the engine keeps of it -/

theorem applyResult_resultRgb_reserved {s : State} (h : s.IsSound) {r : Result} (hr : r.Packed) (d : Word) :
    (s.applyResult r d).resultRgb &&& ~~~(storedBits .resultRgb) = 0 := by
  cases r
  case rgb v =>
    obtain ⟨x, y, z, rfl⟩ := hr v rfl
    exact packRgb_reserved x y z
  case capture fr fg fb => exact packRgb_reserved _ _ _
  all_goals exact h.rgb

theorem complete_isSound {s : State} (h : s.IsSound) {r : Result} (hr : r.Packed) (d : Word) : (s.complete r d).IsSound where
  mem := by rw [complete_mem]; exact h.mem
  pal := by rw [complete_pal]; exact h.pal
  rw := applyResult_rw_reservedZero h r d
  rgb := applyResult_resultRgb_reserved h hr d
  status := by rw [complete_status]; exact h.status
  engine := engineSound_of_idle (complete_engine s r d)

/-- Accesses change the two stores and the draw counter alone, and keep both stores canonical. -/
theorem isSound_of_accesses {s s' : State} (h : s.IsSound)
    (hframe : s' = { s with mem := s'.mem, pal := s'.pal, draws := s'.draws })
    (hmem : s.mem.wf = true → s'.mem.wf = true) (hpal : s.pal.wf = true → s'.pal.wf = true) : s'.IsSound := by
  rw [hframe]
  exact { h with mem := hmem h.mem, pal := hpal h.pal }

/-- The command in flight may go on: the same snapshot, whatever it has done so far. -/
theorem isSound_of_same_snapshot {s : State} {f f' : Flight} (h : s.IsSound) (hbusy : s.engine = .busy f)
    (hops : f'.ops = f.ops) : ({ s with engine := .busy f' } : State).IsSound := by
  obtain ⟨herr, hsnap⟩ := (engineSound_iff_of_busy hbusy).1 h.engine
  exact { h with engine := (engineSound_iff_of_busy rfl).2 ⟨herr, hops.trans hsnap⟩ }

theorem exec_isSound {s t : State} {f : Flight} (i : Instr) (h : s.IsSound) (hbusy : s.engine = .busy f)
    (ht : exec i s = .next t) : t.IsSound := by
  obtain rfl : runCommand i (planOf i) s = t := by simpa [exec_eq_runCommand] using ht
  have hf : s.flightOf i = f := by simp only [State.flightOf, hbusy]
  obtain ⟨c, -, hrun⟩ | ⟨p, f', s', hplan, hacc, -, hrun⟩ | ⟨p, f', s', -, hacc, -, hrun⟩ :=
    runCommand_cases i (planOf i) s
  · rw [hrun]
    exact raiseFault_isSound h _ _
  · obtain ⟨-, -, hframe, hmem, hpal⟩ := runAccesses_frame hacc
    rw [hrun]
    exact complete_isSound (isSound_of_accesses h hframe hmem hpal) (planOf_packed i _ p hplan) _
  · obtain ⟨-, hops, hframe, hmem, hpal⟩ := runAccesses_frame hacc
    rw [hf] at hops
    have hbusy' : s'.engine = .busy f := by rw [hframe]; exact hbusy
    rw [hrun]
    exact isSound_of_same_snapshot (isSound_of_accesses h hframe hmem hpal) hbusy' hops

theorem engineTurn_isSound {s t : State} (h : s.IsSound) (ht : engineTurn s = .next t) : t.IsSound := by
  obtain ⟨-, hturn⟩ | ⟨f, e, -, -, hturn⟩ | ⟨f, i, hbusy, -, hturn⟩ := engineTurn_cases s
  · cases hturn.symm.trans ht
    exact h
  · cases hturn.symm.trans ht
    exact raiseFault_isSound h _ _
  · exact exec_isSound i h hbusy (hturn.symm.trans ht)

theorem tick_isSound {s : State} (h : s.IsSound) : s.tick.IsSound := by
  obtain ⟨-, htick⟩ | ⟨f, c, -, htick⟩ | ⟨f, i, p, hbusy, -, hplan, hnext⟩ := tick_cases s
  · rwa [htick]
  · rw [htick]
    exact raiseFault_isSound h _ _
  · obtain ⟨-, htick⟩ | ⟨a, rest, -, ⟨-, htick⟩ | ⟨f', s', hacc, htick⟩⟩ := hnext
    · rw [htick]
      exact complete_isSound h (planOf_packed i _ p hplan) _
    · rwa [htick]
    · obtain ⟨-, hops, -, hframe, hmem, hpal⟩ := performAccess_frame hacc
      have hbusy' : s'.engine = .busy f := by rw [hframe]; exact hbusy
      rw [htick]
      exact isSound_of_same_snapshot (isSound_of_accesses h hframe hmem hpal) hbusy' hops

/-! ## What the host keeps of it -/

theorem writeStatus_isSound {s : State} (h : s.IsSound) (v : Word) : (s.writeStatus v).IsSound := by
  unfold State.writeStatus
  split
  · exact { h with }
  · exact h

theorem setOvr_isSound {s : State} (h : s.IsSound) : s.setOvr.IsSound := { h with }

theorem writeRegister_isSound {s : State} (h : s.IsSound) (r : RegName) (v : Word) : (s.writeRegister r v).IsSound := by
  obtain hw | ⟨-, hw⟩ | ⟨-, hw⟩ | ⟨-, -, herr, hw⟩ | ⟨hidle, hw⟩ := writeRegister_cases s r v
  · rwa [hw]
  · rw [hw]
    exact writeStatus_isSound h v
  · rw [hw]
    exact setOvr_isSound h
  · rw [hw]
    exact { h with engine := (engineSound_iff_of_busy rfl).2 ⟨herr, rfl⟩ }
  · rw [hw]
    exact { h with
      rw := store_reservedZero h.rw r v
      engine := engineSound_of_idle ((busy_eq_false_iff s).1 hidle) }

theorem readRegister_isSound {s : State} (h : s.IsSound) (r : RegName) : (s.readRegister r).IsSound := by
  rw [readRegister_frame]
  exact { h with }

/-- An accepted register write is a write of some register, or of a reserved offset. -/
theorem hostRegWrite_next {s t : State} {off size : Nat} {v : Word} (ht : s.hostRegWrite off size v = .next t) :
    t = s ∨ ∃ r, t = s.writeRegister r v := by
  unfold State.hostRegWrite at ht
  split at ht
  · cases ht
  · split at ht
    · next r _ => exact .inr ⟨r, (Host.Outcome.next.inj ht).symm⟩
    · exact .inl (Host.Outcome.next.inj ht).symm

/-- An accepted register read is a read of some register, or of a reserved offset. -/
theorem hostRegRead_next {s t : State} {off size : Nat} (ht : s.hostRegRead off size = .next t) :
    t = { s with hostData := 0 } ∨ ∃ r, t = s.readRegister r := by
  unfold State.hostRegRead at ht
  split at ht
  · cases ht
  · split at ht
    · next r _ => exact .inr ⟨r, (Host.Outcome.next.inj ht).symm⟩
    · exact .inl (Host.Outcome.next.inj ht).symm

theorem hostFbWrite_isSound {s : State} (h : s.IsSound) (a : Word) (w : Width) (v : Word) : (s.hostFbWrite a w v).IsSound := by
  obtain ⟨hframe, hidle, hbusy, hmem⟩ := hostFbWrite_frame s a w v
  have hstores {e : Engine} (he : (s.hostFbWrite a w v).engine = e)
      (hs : ({ s with engine := e } : State).IsSound) : (s.hostFbWrite a w v).IsSound := by
    rw [hframe, he]
    exact { hs with mem := hmem h.mem }
  cases hengine : s.engine with
  | idle => exact hstores (hidle hengine) { h with engine := rfl }
  | busy f =>
    obtain ⟨old, hold⟩ := hbusy f hengine
    exact hstores hold (isSound_of_same_snapshot h hengine rfl)

theorem hostFbRead_isSound {s : State} (h : s.IsSound) (a : Word) (w : Width) : (s.hostFbRead a w).IsSound := by
  unfold State.hostFbRead
  split
  · exact { h with }
  · exact { h with }

theorem hostEvent_isSound {s t : State} (e : Event) (h : s.IsSound) (ht : hostEvent e s = .next t) : t.IsSound := by
  cases e with
  | regWrite off size v =>
    obtain rfl | ⟨r, rfl⟩ := hostRegWrite_next ht
    · exact h
    · exact writeRegister_isSound h r v
  | regRead off size =>
    obtain rfl | ⟨r, rfl⟩ := hostRegRead_next ht
    · exact { h with }
    · exact readRegister_isSound h r
  | fbWrite a w v => cases ht; exact hostFbWrite_isSound h a w v
  | fbRead a w => cases ht; exact hostFbRead_isSound h a w
  | reset => cases ht; exact resetBlock_isSound h
  | engine => cases ht; exact tick_isSound h
  | poll => cases ht; exact readRegister_isSound h .status

/-- Settles O59: an engine's turn and every event of the host keep the six parts of the invariant. -/
theorem everyStepKeepsSound : Obligations.EveryStepKeepsSound := by
  unfold Obligations.EveryStepKeepsSound
  intro s t hs ht
  rw [sound_iff] at hs ⊢
  obtain ⟨-, hstep⟩ | ⟨e, rest, -, -, hstep⟩ := step_cases s
  · exact engineTurn_isSound hs (hstep.symm.trans ht)
  · have hrest : ({ s with agenda := rest } : State).IsSound := { hs with }
    exact hostEvent_isSound e hrest (hstep.symm.trans ht)

end Sys2Proof.Machine

/-! # A command does not see the register writes made while it runs (R25, R27, R82, D31) -/

namespace Sys2Proof.Machine

/-- The state with `OVR` at a given value and nothing else changed: all that a register write can do while BUSY = 1. -/
def State.withOvr (s : State) (b : Bool) : State := { s with status := { s.status with ovr := b } }

theorem withOvr_flightOf (s : State) (b : Bool) (i : Instr) : (s.withOvr b).flightOf i = s.flightOf i := rfl

theorem writeRegister_of_busy {s : State} (hbusy : s.busy = true) (r : RegName) (v : Word) :
    ∃ b, s.writeRegister r v = s.withOvr b := by
  obtain hw | ⟨-, hw⟩ | ⟨-, hw⟩ | ⟨-, hidle, -⟩ | ⟨hidle, -⟩ := writeRegister_cases s r v
  · exact ⟨s.status.ovr, hw⟩
  · unfold State.writeStatus at hw
    split at hw
    · exact ⟨false, hw⟩
    · exact ⟨s.status.ovr, hw⟩
  · exact ⟨true, hw⟩
  · simp [hbusy] at hidle
  · simp [hbusy] at hidle

theorem regWrite_of_busy {s : State} (hbusy : s.busy = true) {off : Nat} (v : Word) (h : registerAccessInside off 4 = true) :
    ∃ b, hostEvent (.regWrite off 4 v) s = .next (s.withOvr b) := by
  simp only [hostEvent, hostRegWrite_of_inside s v h]
  cases regAt off with
  | none => exact ⟨s.status.ovr, rfl⟩
  | some r =>
    obtain ⟨b, hw⟩ := writeRegister_of_busy hbusy r v
    exact ⟨b, congrArg Host.Outcome.next hw⟩

/-! ## No part of a command reads or writes `OVR` -/

theorem runAccesses_withOvr (l : List Access) (f : Flight) (s : State) (b : Bool) :
    runAccesses l f (s.withOvr b) =
      ((runAccesses l f s).1, (runAccesses l f s).2.1.withOvr b, (runAccesses l f s).2.2) := by
  rw [runAccesses_congr l f s (s.withOvr b) rfl rfl rfl rfl]
  obtain ⟨-, -, hframe, -, -⟩ := runAccesses_frame (f := f) (s := s) (l := l) rfl
  congr 2
  conv_rhs => rw [hframe]
  rfl

theorem complete_withOvr (s : State) (r : Result) (d : Word) (b : Bool) :
    (s.withOvr b).complete r d = (s.complete r d).withOvr b := by
  cases r <;> rfl

theorem runCommand_withOvr (i : Instr) (plan : OperandRegs → Except FaultCode Plan) (s : State) (b : Bool) :
    runCommand i plan (s.withOvr b) = (runCommand i plan s).withOvr b := by
  unfold runCommand
  simp only [withOvr_flightOf]
  split
  · rfl
  · next p _ =>
    rw [runAccesses_withOvr]
    rcases runAccesses (p.accesses.drop (s.flightOf i).issued) (s.flightOf i) s with ⟨f', s', done⟩
    cases done with
    | true => exact complete_withOvr s' p.result f'.data b
    | false => rfl

theorem exec_withOvr {i : Instr} {s t : State} (h : exec i s = .next t) (b : Bool) :
    exec i (s.withOvr b) = .next (t.withOvr b) := by
  rw [exec_eq_runCommand] at h ⊢
  rw [runCommand_withOvr, Host.Outcome.next.inj h]

/-! ## A run of register writes and then the engine's turn -/

/-- The agenda of a list of 32-bit register writes. -/
def regWrites (writes : List (Nat × Word)) : List Event := writes.map (fun p => .regWrite p.1 4 p.2)

theorem engineTurn_of_decode {s : State} {f : Flight} {i : Instr} (hbusy : s.engine = .busy f) (hi : decode f.cmd = .ok i) :
    engineTurn s = exec i s := by
  simp only [engineTurn, hbusy, hi]

/-- With nothing else to happen, the step of a running command is its meaning. -/
theorem step_of_running {s : State} {f : Flight} {i : Instr} (ha : s.agenda = []) (hbusy : s.engine = .busy f)
    (hi : decode f.cmd = .ok i) : step s = exec i s := by
  rw [step_of_engineMoves (engineMoves_of_agenda_nil ha), engineTurn_of_decode hbusy hi]

/-- A register write at the head of the agenda happens before the engine moves. -/
theorem step_of_regWrite {s : State} {off : Nat} {v : Word} {rest : List Event}
    (ha : s.agenda = .regWrite off 4 v :: rest) :
    step s = hostEvent (.regWrite off 4 v) { s with agenda := rest } :=
  step_of_hostMoves ha fun hm => by simp [engineMoves_iff_of_agenda_cons ha] at hm

theorem run_succ_of_next (M : Host.Core) {s s' : M.State} (k : Nat) (h : M.step s = .next s') :
    M.run (k + 1) s = M.run k s' := by
  rw [Host.Core.run, h]

/-- A run of the block takes its first step, then the others. -/
theorem core_run_succ {s s' : State} (k : Nat) (h : step s = .next s') :
    Host.Core.run core (k + 1) s = Host.Core.run core k s' :=
  run_succ_of_next core (s := s) (s' := s') k h

theorem run_regWrites_then_command {f : Flight} {i : Instr} (hi : decode f.cmd = .ok i) (writes : List (Nat × Word))
    (hin : ∀ p ∈ writes, registerAccessInside p.1 4 = true) {s t : State} (hbusy : s.engine = .busy f)
    (hexec : exec i { s with agenda := [] } = .next t) :
    ∃ b, Host.Core.run core (writes.length + 1) { s with agenda := regWrites writes } = .next (t.withOvr b) := by
  induction writes generalizing s t with
  | nil =>
    exact ⟨t.status.ovr, core_run_succ 0 ((step_of_running (s := { s with agenda := [] }) rfl hbusy hi).trans hexec)⟩
  | cons p rest ih =>
    have hbusy' : ({ s with agenda := regWrites rest } : State).busy = true := (busy_iff _).2 ⟨f, hbusy⟩
    obtain ⟨b, hwrite⟩ := regWrite_of_busy hbusy' p.2 (hin p List.mem_cons_self)
    obtain ⟨b', hrun⟩ := ih (s := s.withOvr b) (fun q hq => hin q (List.mem_cons_of_mem _ hq)) hbusy
      (exec_withOvr hexec b)
    have hstep := (step_of_regWrite (s := { s with agenda := regWrites (p :: rest) }) rfl).trans hwrite
    exact ⟨b', (core_run_succ (rest.length + 1) hstep).trans hrun⟩

/-- Settles O39: each write in turn changes OVR alone, and the command runs the same whatever OVR is. -/
theorem registerWritesDoNotDisturbCommand : Obligations.RegisterWritesDoNotDisturbCommand := by
  unfold Obligations.RegisterWritesDoNotDisturbCommand
  intro s t f i writes hbusy hi hin hexec
  refine run_regWrites_then_command hi writes (fun p hp => ?_) hbusy hexec
  obtain ⟨hmul, hlt⟩ := hin p hp
  exact registerAccessInside_of_aligned (by omega) hmul

end Sys2Proof.Machine

/-! # EXTRACT inverts ENC_COL (R45, R102, R103, R104, R107, R109) -/

namespace Sys2Proof.Machine

/-! ## Extraction of one field (R103, R104) -/

theorem extractField_eq (raw : Word) (f : ChannelField) :
    extractField raw f = raw.toNat / 2 ^ f.off.toNat % 2 ^ f.len.toNat := by
  rw [extractField, Nat.and_two_pow_sub_one_eq_mod, Nat.shiftRight_eq_div_pow]

theorem extractField_lt (raw : Word) (f : ChannelField) : extractField raw f < 2 ^ f.len.toNat := by
  rw [extractField_eq]
  exact Nat.mod_lt _ (by positivity)

/-- Extraction reads each bit by itself, so it distributes over the OR that R100 joins the channels with. -/
theorem extractField_or (a b : Word) (f : ChannelField) :
    extractField (a ||| b) f = extractField a f ||| extractField b f := by
  simp only [extractField, BitVec.toNat_or, Nat.shiftRight_or_distrib, Nat.and_or_distrib_right]

/-- Normalizing is left-justifying in 8 bits, where nothing is lost (R104, R105). -/
theorem normalizeChannel_toNat (raw : Word) (f : ChannelField) (hlen : f.len.toNat ≤ 8) :
    (normalizeChannel raw f).toNat = extractField raw f * 2 ^ (8 - f.len.toNat) := by
  have hlt : extractField raw f * 2 ^ (8 - f.len.toNat) < 2 ^ 8 := by
    calc extractField raw f * 2 ^ (8 - f.len.toNat)
        < 2 ^ f.len.toNat * 2 ^ (8 - f.len.toNat) := Nat.mul_lt_mul_of_pos_right (extractField_lt raw f) (by positivity)
      _ = 2 ^ 8 := by rw [← pow_add, Nat.add_sub_cancel' hlen]
  rw [normalizeChannel, BitVec.toNat_ofNat, Nat.shiftLeft_eq, Nat.mod_eq_of_lt hlt]

/-! ## The clamped code of an in-range intensity (R102) -/

/-- The field lies in the 32 bits of a raw value. -/
def ChannelField.Fits (f : ChannelField) : Prop := f.off.toNat + f.len.toNat ≤ 32

/-- The intensity is one that the field can hold, which R102 does not clamp. -/
def ChannelField.InRange (f : ChannelField) (v : Byte) : Prop := v.toNat < 2 ^ f.len.toNat

/-- The bits of the two fields do not overlap. -/
def ChannelField.Apart (f g : ChannelField) : Prop :=
  f.off.toNat + f.len.toNat ≤ g.off.toNat ∨ g.off.toNat + g.len.toNat ≤ f.off.toNat

theorem ChannelField.Apart.symm {f g : ChannelField} (h : f.Apart g) : g.Apart f := Or.symm h

/-- An in-range intensity, moved to its field, ends below the field's end. -/
theorem shifted_lt {f : ChannelField} {v : Byte} (hv : f.InRange v) :
    v.toNat * 2 ^ f.off.toNat < 2 ^ (f.off.toNat + f.len.toNat) := by
  rw [pow_add, Nat.mul_comm (2 ^ f.off.toNat)]
  exact Nat.mul_lt_mul_of_pos_right hv (by positivity)

theorem chanCol_toNat {f : ChannelField} {v : Byte} (hf : f.Fits) (hv : f.InRange v) :
    (chanCol v f).toNat = v.toNat * 2 ^ f.off.toNat := by
  have hmin : min v.toNat (mask f.len.toNat) = v.toNat := Nat.min_eq_left (Nat.le_sub_one_of_lt hv)
  have hlt : v.toNat * 2 ^ f.off.toNat < 2 ^ 32 := (shifted_lt hv).trans_le (Nat.pow_le_pow_right (by omega) hf)
  rw [chanCol, hmin, Nat.shiftLeft_eq, BitVec.toNat_ofNat, Nat.mod_eq_of_lt hlt]

theorem extractField_chanCol_same {f : ChannelField} {v : Byte} (hf : f.Fits) (hv : f.InRange v) :
    extractField (chanCol v f) f = v.toNat := by
  rw [extractField_eq, chanCol_toNat hf hv, Nat.mul_div_cancel _ (by positivity), Nat.mod_eq_of_lt hv]

/-- Below the other field the code has no bits, and above it the code lies past the extracted bits. -/
theorem extractField_chanCol_of_apart {f g : ChannelField} {v : Byte} (hg : g.Fits) (hv : g.InRange v) (h : f.Apart g) :
    extractField (chanCol v g) f = 0 := by
  rw [extractField_eq, chanCol_toNat hg hv]
  obtain hbelow | habove := h
  · obtain ⟨k, hk⟩ := Nat.exists_eq_add_of_le hbelow
    have hsplit : v.toNat * 2 ^ g.off.toNat = v.toNat * 2 ^ k * 2 ^ f.len.toNat * 2 ^ f.off.toNat := by
      rw [hk]
      ring
    rw [hsplit, Nat.mul_div_cancel _ (by positivity), Nat.mul_mod_left]
  · have hlt : v.toNat * 2 ^ g.off.toNat < 2 ^ f.off.toNat :=
      (shifted_lt hv).trans_le (Nat.pow_le_pow_right (by omega) habove)
    rw [Nat.div_eq_of_lt hlt, Nat.zero_mod]

/-! ## The three channels together (R45, R107) -/

/-- A channel's intensity in `COLOR` (R33). -/
def intensityOf (o : OperandRegs) : Channel → Byte
  | .red => o.colorR
  | .green => o.colorG
  | .blue => o.colorB

/-- The descriptors' part of the invariant (R45) for three channels whose intensities are in range. -/
structure OperandRegs.RoundTrips (o : OperandRegs) : Prop where
  fits : ∀ c, (channelOf o c).Fits
  inRange : ∀ c, (channelOf o c).InRange (intensityOf o c)
  apart : ∀ c d, c ≠ d → (channelOf o c).Apart (channelOf o d)

theorem roundTrips_of_fields {o : OperandRegs}
    (hfits : ∀ f ∈ [o.redField, o.greenField, o.blueField], f.Fits)
    (hapart : [o.redField, o.greenField, o.blueField].Pairwise ChannelField.Apart)
    (hred : o.redField.InRange o.colorR) (hgreen : o.greenField.InRange o.colorG) (hblue : o.blueField.InRange o.colorB) :
    o.RoundTrips := by
  obtain ⟨hfr, hfg, hfb⟩ : o.redField.Fits ∧ o.greenField.Fits ∧ o.blueField.Fits := by simpa using hfits
  obtain ⟨⟨hrg, hrb⟩, hgb⟩ : (o.redField.Apart o.greenField ∧ o.redField.Apart o.blueField) ∧
      o.greenField.Apart o.blueField := by simpa using hapart
  exact
    { fits := fun | .red => hfr | .green => hfg | .blue => hfb
      inRange := fun | .red => hred | .green => hgreen | .blue => hblue
      apart := fun
        | .red, .green, _ => hrg
        | .red, .blue, _ => hrb
        | .green, .blue, _ => hgb
        | .green, .red, _ => hrg.symm
        | .blue, .red, _ => hrb.symm
        | .blue, .green, _ => hgb.symm
        | .red, .red, hne | .green, .green, hne | .blue, .blue, hne => absurd rfl hne }

/-- What one channel's code gives to the field of another: the intensity to its own, nothing to the others. -/
theorem OperandRegs.RoundTrips.extractField_chanCol {o : OperandRegs} (h : o.RoundTrips) (c d : Channel) :
    extractField (chanCol (intensityOf o d) (channelOf o d)) (channelOf o c) =
      if c = d then (intensityOf o c).toNat else 0 := by
  split
  · next hcd =>
    subst hcd
    exact extractField_chanCol_same (h.fits c) (h.inRange c)
  · next hcd => exact extractField_chanCol_of_apart (h.fits d) (h.inRange d) (h.apart c d hcd)

/-- The clamped encoding is the OR of the channels' codes (R100). -/
theorem encodeCol_eq (o : OperandRegs) :
    encodeCol o = chanCol (intensityOf o .red) (channelOf o .red) ||| chanCol (intensityOf o .green) (channelOf o .green) |||
      chanCol (intensityOf o .blue) (channelOf o .blue) := rfl

theorem OperandRegs.RoundTrips.extractField_encodeCol {o : OperandRegs} (h : o.RoundTrips) (c : Channel) :
    extractField (encodeCol o) (channelOf o c) = (intensityOf o c).toNat := by
  rw [encodeCol_eq, extractField_or, extractField_or]
  simp only [h.extractField_chanCol]
  cases c <;> simp

theorem extractOk_len {o : OperandRegs} (h : o.extractOk = true) (c : Channel) : (channelOf o c).len.toNat ≤ 8 := by
  simp only [OperandRegs.extractOk, Bool.and_eq_true, decide_eq_true_eq] at h
  obtain ⟨⟨⟨⟨⟨-, hred⟩, -⟩, hgreen⟩, -⟩, hblue⟩ := h
  cases c
  · exact hred
  · exact hgreen
  · exact hblue

theorem OperandRegs.RoundTrips.normalizeChannel_encodeCol {o : OperandRegs} (h : o.RoundTrips) (hok : o.extractOk = true)
    (c : Channel) :
    (normalizeChannel (encodeCol o) (channelOf o c)).toNat =
      (intensityOf o c).toNat * 2 ^ (8 - (channelOf o c).len.toNat) := by
  rw [normalizeChannel_toNat _ _ (extractOk_len hok c), h.extractField_encodeCol c]

/-! ## The two commands (R107, R109) -/

/-- A command without accesses whose checks pass is its end. -/
theorem exec_of_no_accesses {i : Instr} {s : State} {r : Result}
    (hplan : planOf i s.operands = .ok { accesses := [], result := r }) :
    exec i s = .next (s.complete r (s.flightOf i).data) := by
  simp only [exec_eq_runCommand, runCommand, flightOf_ops, hplan, List.drop_nil, runAccesses]

theorem exec_encCol (s : State) :
    exec .encCol s = .next { s with resultRaw := encodeCol s.operands, engine := .idle } :=
  exec_of_no_accesses (r := .raw (encodeCol s.operands)) rfl

theorem planExtract_of_extractOk {o : OperandRegs} (h : o.extractOk = true) :
    planExtract o = .ok {
      accesses := []
      result := .rgb (packRgb (normalizeChannel o.rawIn o.redField) (normalizeChannel o.rawIn o.greenField)
        (normalizeChannel o.rawIn o.blueField)) } := by
  rw [planExtract, bind_ok]
  exact ⟨(), (checkExtract_ok o).2 h, rfl⟩

theorem exec_extract {s : State} (h : s.operands.extractOk = true) :
    exec .extract s = .next { s with
      resultRgb := packRgb (normalizeChannel s.operands.rawIn s.operands.redField)
        (normalizeChannel s.operands.rawIn s.operands.greenField) (normalizeChannel s.operands.rawIn s.operands.blueField)
      engine := .idle } :=
  exec_of_no_accesses (i := .extract) (planExtract_of_extractOk h)

theorem resultRgb_of_exec_extract {s t : State} (h : s.operands.extractOk = true) (ht : exec .extract s = .next t) :
    t.resultRgb = packRgb (normalizeChannel s.operands.rawIn s.operands.redField)
      (normalizeChannel s.operands.rawIn s.operands.greenField)
      (normalizeChannel s.operands.rawIn s.operands.blueField) := by
  rw [exec_extract h] at ht
  rw [← Host.Outcome.next.inj ht]

theorem packRgb_eq_rgbWord (r g b : Byte) : packRgb r g b = rgbWord r.toNat g.toNat b.toNat := by
  apply BitVec.eq_of_toNat_eq
  rw [packRgb_toNat, rgbWord, BitVec.toNat_ofNat]
  omega

/-- Unpacked from the encoded colour, every intensity comes back left-justified. -/
theorem OperandRegs.RoundTrips.packRgb_encodeCol {o : OperandRegs} (h : o.RoundTrips) (hok : o.extractOk = true) :
    packRgb (normalizeChannel (encodeCol o) o.redField) (normalizeChannel (encodeCol o) o.greenField)
        (normalizeChannel (encodeCol o) o.blueField) =
      rgbWord (o.colorR.toNat * 2 ^ (8 - o.redField.len.toNat)) (o.colorG.toNat * 2 ^ (8 - o.greenField.len.toNat))
        (o.colorB.toNat * 2 ^ (8 - o.blueField.len.toNat)) := by
  rw [packRgb_eq_rgbWord]
  exact congr (congrArg₂ rgbWord (h.normalizeChannel_encodeCol hok .red) (h.normalizeChannel_encodeCol hok .green))
    (h.normalizeChannel_encodeCol hok .blue)

/-- Settles O15: EXTRACT of the encoded colour finds each channel's own code in its field and nothing of the others. -/
theorem extractInvertsEncCol : Obligations.ExtractInvertsEncCol := by
  unfold Obligations.ExtractInvertsEncCol
  intro s t u hidle hok hfits hapart hred hgreen hblue hencode hextract
  have htrip : s.rw.RoundTrips := roundTrips_of_fields hfits hapart hred hgreen hblue
  have hops : s.operands = s.rw := by simp only [State.operands, hidle]
  obtain rfl : { s with resultRaw := encodeCol s.rw, engine := .idle } = t := by
    simpa only [exec_encCol, hops, Host.Outcome.next.injEq] using hencode
  refine (resultRgb_of_exec_extract ?legal hextract).trans ?roundTrip
  case legal => exact hok
  case roundTrip => exact htrip.packRgb_encodeCol hok

end Sys2Proof.Machine

/-! # The accesses of a command: the bytes they write, and where they lie (R61, R64, R65, R71, R131, R132) -/

namespace Sys2Proof.Machine

/-! ## The byte that one access writes at an address -/

/-- The byte that an access writes at an address, if it writes one there. -/
def Access.writeAt (a : Access) (x : Word) : Option Byte :=
  match a with
  | .memWrite addr w v => if covers addr w.bytes x then some (v.extractLsb' (8 * (x - addr).toNat) 8) else none
  | .memRead _ _ => none
  | .palWrite _ _ => none

theorem width_bytes_le (w : Width) : w.bytes ≤ 4 := by cases w <;> decide

/-- An access of a command writes exactly the bytes that `writeAt` names (R61, R62). -/
theorem readByte_performAccess {a : Access} {f f' : Flight} {s s' : State} (hmem : s.mem.wf = true)
    (h : performAccess a f s = some (f', s')) (x : Word) :
    readByte s'.mem x = (a.writeAt x).getD (readByte s.mem x) := by
  obtain ⟨addr, w, v, rfl, -, -, rfl⟩ | ⟨addr, w, v, d, rfl, -, -, -, rfl⟩ | ⟨idx, e, rfl, -, rfl⟩ := performAccess_cases h
  · have hw := width_bytes_le w
    rw [readByte_writeBytes _ _ _ _ _ hmem (by omega)]
    simp only [Access.writeAt, covers, decide_eq_true_eq]
    split <;> rfl
  · rfl
  · rfl

theorem writeCovering_cons (x : Word) (k : Nat) (a : Access) (l : List Access) :
    writeCovering x k (a :: l) =
      match a.writeAt x with
      | some v => some (k, v)
      | none => writeCovering x (k + 1) l := by
  cases a with
  | memWrite addr w v =>
    simp only [writeCovering, Access.writeAt]
    by_cases h : covers addr w.bytes x = true <;> simp only [h, if_true, if_false, Bool.false_eq_true]
  | memRead addr w => rfl
  | palWrite idx e => rfl

theorem writeCovering_eq_none_iff (x : Word) (k : Nat) (l : List Access) :
    writeCovering x k l = none ↔ ∀ a ∈ l, a.writeAt x = none := by
  induction l generalizing k with
  | nil => simp [writeCovering]
  | cons a l ih =>
    rw [writeCovering_cons, List.forall_mem_cons]
    cases h : a.writeAt x with
    | none => simp [ih]
    | some v => simp

/-- The number of the write access that `writeCovering` finds is not below the first number. -/
theorem le_of_writeCovering {x : Word} {k j : Nat} {v : Byte} {l : List Access} (h : writeCovering x k l = some (j, v)) :
    k ≤ j := by
  induction l generalizing k with
  | nil => cases h
  | cons a l ih =>
    rw [writeCovering_cons] at h
    split at h
    · obtain ⟨rfl, -⟩ := by simpa using h
      exact le_rfl
    · exact (Nat.le_succ k).trans (ih h)

/-- Among the first accesses of a list, the write access found is the one found in the list, if it is one of them. -/
theorem writeCovering_take (x : Word) (k n : Nat) (l : List Access) :
    writeCovering x k (l.take n) = (writeCovering x k l).filter fun q => decide (q.1 < k + n) := by
  induction n generalizing k l with
  | zero =>
    cases h : writeCovering x k l with
    | none => simp [writeCovering]
    | some q => simp [writeCovering, Option.filter_some, le_of_writeCovering (v := q.2) h]
  | succ n ih =>
    cases l with
    | nil => simp [writeCovering]
    | cons a l =>
      rw [List.take_succ_cons, writeCovering_cons, writeCovering_cons]
      cases a.writeAt x with
      | none => rw [show k + (n + 1) = k + 1 + n by omega]; exact ih (k + 1) l
      | some v => simp [Option.filter_some]

/-- The byte that `writeCovering` finds does not depend on the first number. -/
theorem map_snd_writeCovering (x : Word) (k k' : Nat) (l : List Access) :
    (writeCovering x k l).map Prod.snd = (writeCovering x k' l).map Prod.snd := by
  induction l generalizing k k' with
  | nil => rfl
  | cons a l ih =>
    rw [writeCovering_cons, writeCovering_cons]
    cases a.writeAt x with
    | none => exact ih _ _
    | some v => rfl

theorem byteAfter_eq (l : List Access) (m : Memory) (x : Word) :
    byteAfter l m x = ((writeCovering x 0 l).map Prod.snd).getD (readByte m x) := by
  unfold byteAfter
  cases writeCovering x 0 l <;> rfl

theorem byteAfter_cons (a : Access) (l : List Access) (m : Memory) (x : Word) :
    byteAfter (a :: l) m x = (a.writeAt x).getD (byteAfter l m x) := by
  rw [byteAfter_eq, byteAfter_eq, writeCovering_cons]
  cases a.writeAt x with
  | none => exact congrArg (Option.getD · _) (map_snd_writeCovering x 1 0 l)
  | some v => rfl

/-! ## What a list of accesses leaves in memory -/

/-- No byte is written by two accesses of the list. -/
def WriteOnce (l : List Access) : Prop := l.Pairwise fun a b => ∀ x, a.writeAt x = none ∨ b.writeAt x = none

theorem readByte_runAccesses_of_unwritten {l : List Access} {f f' : Flight} {s s' : State} {b : Bool}
    (hmem : s.mem.wf = true) (h : runAccesses l f s = (f', s', b)) {x : Word} (hx : ∀ a ∈ l, a.writeAt x = none) :
    readByte s'.mem x = readByte s.mem x := by
  induction l generalizing f s with
  | nil => cases h; rfl
  | cons a l ih =>
    obtain ⟨ha, hl⟩ := List.forall_mem_cons.1 hx
    simp only [runAccesses] at h
    split at h
    · cases h; rfl
    · next f1 s1 hperform =>
      obtain ⟨-, -, -, -, hwf, -⟩ := performAccess_frame hperform
      rw [ih (hwf hmem) h hl, readByte_performAccess hmem hperform, ha]
      rfl

/-- Accesses that all complete leave each byte that one of them writes as that access wrote it, and every other byte as it was
(R74). -/
theorem readByte_runAccesses {l : List Access} (honce : WriteOnce l) {f f' : Flight} {s s' : State} (hmem : s.mem.wf = true)
    (h : runAccesses l f s = (f', s', true)) (x : Word) : readByte s'.mem x = byteAfter l s.mem x := by
  induction l generalizing f s with
  | nil => cases h; rfl
  | cons a l ih =>
    obtain ⟨hapart, honce⟩ := List.pairwise_cons.1 honce
    simp only [runAccesses] at h
    split at h
    · cases h
    · next f1 s1 hperform =>
      obtain ⟨-, -, -, -, hwf, -⟩ := performAccess_frame hperform
      rw [byteAfter_cons]
      cases ha : a.writeAt x with
      | none =>
        rw [ih honce (hwf hmem) h, byteAfter_eq, byteAfter_eq, readByte_performAccess hmem hperform, ha]
        rfl
      | some v =>
        have hrest : ∀ b ∈ l, b.writeAt x = none := fun b hb => (hapart b hb x).resolve_left (by simp [ha])
        rw [readByte_runAccesses_of_unwritten (hwf hmem) h hrest, readByte_performAccess hmem hperform, ha]
        rfl

/-! ## The accesses of a container (R64, R65) -/

theorem writeAt_byte (addr d x : Word) (v : Byte) :
    (Access.memWrite (addr + d) .b1 (v.setWidth 32)).writeAt x = if x - addr = d then some v else none := by
  have hiff : (x - (addr + d)).toNat < 1 ↔ x - addr = d := by bv_omega
  simp only [Access.writeAt, covers, Width.bytes, decide_eq_true_eq, hiff]
  split
  · next h =>
    have hzero : (x - (addr + d)).toNat = 0 := by bv_omega
    rw [hzero]
    have hbyte : (v.setWidth 32).extractLsb' (8 * 0) 8 = v := by
      ext i hi
      simp [hi, show i < 32 by omega]
    rw [hbyte]
  · rfl

theorem containerWrite_c24 (addr raw : Word) :
    containerWrite .c24 addr raw =
      [.memWrite (addr + 0) .b1 ((raw.extractLsb' 0 8).setWidth 32),
        .memWrite (addr + 1) .b1 ((raw.extractLsb' 8 8).setWidth 32),
        .memWrite (addr + 2) .b1 ((raw.extractLsb' 16 8).setWidth 32)] := by
  rw [show addr + 0 = addr by simp]
  rfl

theorem writeOnce_containerWrite (c : Container) (addr raw : Word) : WriteOnce (containerWrite c addr raw) := by
  cases c
  case c24 =>
    have apart {d e : Word} (hne : d ≠ e) (v v' : Byte) (x : Word) :
        (Access.memWrite (addr + d) .b1 (v.setWidth 32)).writeAt x = none ∨
          (Access.memWrite (addr + e) .b1 (v'.setWidth 32)).writeAt x = none := by
      rw [writeAt_byte, writeAt_byte]
      by_cases hd : x - addr = d
      · exact .inr (if_neg fun he => hne (hd.symm.trans he))
      · exact .inl (if_neg hd)
    rw [containerWrite_c24]
    simp only [WriteOnce, List.pairwise_cons, List.forall_mem_cons]
    exact ⟨⟨apart (by decide) _ _, apart (by decide) _ _, nofun⟩, ⟨apart (by decide) _ _, nofun⟩, nofun, .nil⟩
  case c8 | c16 | c32 => exact List.pairwise_singleton _ _

theorem writeAt_eq_none_of_not_covers {addr v x : Word} {w : Width} (h : covers addr w.bytes x = false) :
    (Access.memWrite addr w v).writeAt x = none := by
  simp only [Access.writeAt, h]
  rfl

/-- The accesses of a container write lie in the container. -/
theorem writeAt_containerWrite_outside {c : Container} {addr raw x : Word} (hx : ¬ (x - addr).toNat < c.nbytes) :
    ∀ a ∈ containerWrite c addr raw, a.writeAt x = none := by
  cases c
  case c24 =>
    have outside {d : Word} (hd : d.toNat < 3) (v : Byte) :
        (Access.memWrite (addr + d) .b1 (v.setWidth 32)).writeAt x = none := by
      rw [writeAt_byte]
      exact if_neg fun he => hx (by rw [he]; exact hd)
    rw [containerWrite_c24]
    simp only [List.forall_mem_cons]
    exact ⟨outside (by decide) _, outside (by decide) _, outside (by decide) _, nofun⟩
  case c8 | c16 | c32 =>
    exact List.forall_mem_singleton.2 (writeAt_eq_none_of_not_covers (decide_eq_false hx))

/-- The byte writes of a 24-bit container, by the distance from its address. -/
theorem writeCovering_c24 (addr raw x : Word) :
    writeCovering x 0 (containerWrite .c24 addr raw) =
      if (x - addr).toNat < 3 then some ((x - addr).toNat, raw.extractLsb' (8 * (x - addr).toNat) 8) else none := by
  have hat (d : Word) : x - addr = d ↔ (x - addr).toNat = d.toNat := BitVec.toNat_inj.symm
  rw [containerWrite_c24]
  simp only [writeCovering_cons, writeAt_byte, hat]
  generalize (x - addr).toNat = j
  by_cases hj : j < 3
  · interval_cases j <;> rfl
  · rw [if_neg hj, if_neg (show j ≠ _ from fun h => hj (by simp [h])), if_neg (show j ≠ _ from fun h => hj (by simp [h])),
      if_neg (show j ≠ _ from fun h => hj (by simp [h]))]
    rfl

/-- The first `k` byte writes of a 24-bit container leave its first `k` bytes written and no other byte (R64, R66). -/
theorem byteAfter_take_c24 (addr raw : Word) {k : Nat} (hk : k ≤ 3) (m : Memory) (x : Word) :
    byteAfter ((containerWrite .c24 addr raw).take k) m x =
      if (x - addr).toNat < k then raw.extractLsb' (8 * (x - addr).toNat) 8 else readByte m x := by
  rw [byteAfter_eq, writeCovering_take, writeCovering_c24]
  generalize (x - addr).toNat = j
  by_cases hjk : j < k
  · simp [hjk, show j < 3 by omega, Option.filter_some]
  · by_cases hj : j < 3 <;> simp [hjk, hj, Option.filter_some]

/-! ## The accesses of every command (R131 to R140, R174 to R178) -/

/-- A container at an address lies in the surface: at a byte offset whose exact end is not past the end of the surface. -/
def OperandRegs.Holds (o : OperandRegs) (c : Container) (addr : Word) : Prop :=
  containerOf o.bpp = some c ∧ ∃ off, off + c.nbytes ≤ o.surfaceSize c ∧ addr = o.surfaceAddr off

/-- What the accesses of a command can be: the write of one container of the surface, the read of one container, or palette
writes. -/
inductive AccessShape (o : OperandRegs) : List Access → Prop
  | write {c : Container} {addr : Word} (raw : Word) (h : o.Holds c addr) : AccessShape o (containerWrite c addr raw)
  | read (c : Container) (addr : Word) : AccessShape o (containerRead c addr)
  | palette {l : List Access} (h : ∀ a ∈ l, ∃ idx e, a = .palWrite idx e) : AccessShape o l

theorem formatOk_container {o : OperandRegs} {c : Container} (h : o.formatOk c = true) : containerOf o.bpp = some c := by
  simp only [OperandRegs.formatOk, Bool.and_eq_true, decide_eq_true_eq] at h
  exact h.1

/-- The exact end of a pixel inside the visible window is not past the end of the surface (R131). -/
theorem pixOffset_inside {o : OperandRegs} (c : Container) (hw : o.visW ≤ o.virtW) (hh : o.visH ≤ o.virtH) (hx : o.x < o.visW)
    (hy : o.y < o.visH) : o.pixOffset c + c.nbytes ≤ o.surfaceSize c :=
  calc o.y * o.stride c + o.x * c.nbytes + c.nbytes
      = o.y * o.stride c + (o.x + 1) * c.nbytes := by ring
    _ ≤ o.y * o.stride c + o.virtW * c.nbytes := by gcongr; omega
    _ = (o.y + 1) * o.stride c := by rw [OperandRegs.stride]; ring
    _ ≤ o.virtH * o.stride c := by gcongr; omega
    _ = o.surfaceSize c := Nat.mul_comm _ _

theorem holds_pixelTarget {o : OperandRegs} {c : Container} {addr : Word} (hc : checkFormat o = .ok c)
    (ht : pixelTarget o c = .ok addr) : o.Holds c addr := by
  obtain ⟨hok, rfl⟩ := (pixelTarget_ok o c addr).1 ⟨(checkFormat_ok o c).1 hc, ht⟩
  simp only [OperandRegs.pixelOk, Bool.and_eq_true, decide_eq_true_eq] at hok
  obtain ⟨⟨⟨⟨⟨hformat, hw⟩, hh⟩, hx⟩, hy⟩, -⟩ := hok
  exact ⟨formatOk_container hformat, _, pixOffset_inside c hw hh hx hy, rfl⟩

theorem holds_offsetTarget {o : OperandRegs} {c : Container} {addr : Word} (hc : checkFormat o = .ok c)
    (ht : offsetTarget o c = .ok addr) : o.Holds c addr := by
  obtain ⟨hok, rfl⟩ := (offsetTarget_ok o c addr).1 ⟨(checkFormat_ok o c).1 hc, ht⟩
  simp only [OperandRegs.offsetOk, Bool.and_eq_true, decide_eq_true_eq] at hok
  obtain ⟨⟨hformat, hend⟩, -⟩ := hok
  exact ⟨formatOk_container hformat, _, hend, rfl⟩

theorem mem_install {start : Nat} {es : List PalEntry} {a : Access} (ha : a ∈ install start es) :
    ∃ idx e, a = .palWrite idx e := by
  induction es generalizing start with
  | nil => cases ha
  | cons e es ih =>
    obtain rfl | ha := List.mem_cons.1 ha
    · exact ⟨_, _, rfl⟩
    · exact ih ha

theorem mem_buildAccesses {o : OperandRegs} {a : Access} (ha : a ∈ buildAccesses o) : ∃ idx e, a = .palWrite idx e := by
  simp only [buildAccesses, List.mem_append] at ha
  obtain (ha | ha) | ha := ha <;> exact mem_install ha

/-- What the accesses of a command whose checks pass can be. -/
theorem planOf_accessShape {i : Instr} {o : OperandRegs} {p : Plan} (h : planOf i o = .ok p) : AccessShape o p.accesses := by
  cases i
  case encRep | encCol | palRead => cases h; exact .palette nofun
  case palBuild => cases h; exact .palette fun _ => mem_buildAccesses
  case palWrite => cases h; exact .palette (List.forall_mem_singleton.2 ⟨_, _, rfl⟩)
  case encPal =>
    obtain ⟨c, -, h⟩ := (bind_ok _ _ _).1 h
    obtain ⟨-, -, h⟩ := (bind_ok _ _ _).1 h
    cases h; exact .palette nofun
  case extract =>
    obtain ⟨-, -, h⟩ := (bind_ok _ _ _).1 h
    cases h; exact .palette nofun
  case setpixRep | setpixCol | setpixPal =>
    obtain ⟨c, hc, h⟩ := (bind_ok _ _ _).1 h
    obtain ⟨-, -, h⟩ := (bind_ok _ _ _).1 h
    obtain ⟨addr, ht, h⟩ := (bind_ok _ _ _).1 h
    cases h; exact .write _ (holds_pixelTarget hc ht)
  case putraw =>
    obtain ⟨c, hc, h⟩ := (bind_ok _ _ _).1 h
    obtain ⟨addr, ht, h⟩ := (bind_ok _ _ _).1 h
    cases h; exact .write _ (holds_pixelTarget hc ht)
  case cwrite =>
    obtain ⟨c, hc, h⟩ := (bind_ok _ _ _).1 h
    obtain ⟨addr, ht, h⟩ := (bind_ok _ _ _).1 h
    cases h; exact .write _ (holds_offsetTarget hc ht)
  case getpix | cread =>
    obtain ⟨c, -, h⟩ := (bind_ok _ _ _).1 h
    obtain ⟨addr, -, h⟩ := (bind_ok _ _ _).1 h
    cases h; exact .read c addr
  case grabpix =>
    obtain ⟨c, -, h⟩ := (bind_ok _ _ _).1 h
    obtain ⟨-, -, h⟩ := (bind_ok _ _ _).1 h
    obtain ⟨addr, -, h⟩ := (bind_ok _ _ _).1 h
    obtain ⟨-, -, h⟩ := (bind_ok _ _ _).1 h
    cases h; exact .read c addr

theorem writeAt_of_palette {l : List Access} (h : ∀ a ∈ l, ∃ idx e, a = .palWrite idx e) (x : Word) :
    ∀ a ∈ l, a.writeAt x = none := by
  intro a ha
  obtain ⟨idx, e, rfl⟩ := h a ha
  rfl

theorem writeAt_containerRead (c : Container) (addr x : Word) : ∀ a ∈ containerRead c addr, a.writeAt x = none := by
  cases c <;> simp [containerRead, Access.writeAt]

theorem writeOnce_of_unwritten {l : List Access} (h : ∀ x, ∀ a ∈ l, a.writeAt x = none) : WriteOnce l :=
  List.pairwise_of_forall_mem_list fun a ha _ _ x => .inl (h x a ha)

/-- No command writes a byte twice. -/
theorem AccessShape.writeOnce {o : OperandRegs} {l : List Access} (h : AccessShape o l) : WriteOnce l := by
  cases h with
  | write raw _ => exact writeOnce_containerWrite _ _ raw
  | read c addr => exact writeOnce_of_unwritten (writeAt_containerRead c addr)
  | palette h => exact writeOnce_of_unwritten (writeAt_of_palette h)

/-! ## No command writes outside the surface (R71) -/

/-- A byte address lies in the surface, counted from `FB_BASE` modulo 2^32 (R31, R70, R71). -/
def OperandRegs.OnSurface (o : OperandRegs) (x : Word) : Prop :=
  ∃ c : Container, containerOf o.bpp = some c ∧ (x - o.fbBase).toNat < o.surfaceSize c

theorem OperandRegs.Holds.onSurface {o : OperandRegs} {c : Container} {addr x : Word} (h : o.Holds c addr)
    (hx : (x - addr).toNat < c.nbytes) : o.OnSurface x := by
  obtain ⟨hc, off, hend, rfl⟩ := h
  refine ⟨c, hc, lt_of_le_of_lt ?_ (show off + (x - o.surfaceAddr off).toNat < o.surfaceSize c by omega)⟩
  have hsplit : x - o.fbBase = BitVec.ofNat 32 (off + (x - o.surfaceAddr off).toNat) := by
    simp only [OperandRegs.surfaceAddr]
    bv_omega
  rw [hsplit, BitVec.toNat_ofNat]
  exact Nat.mod_le _ _

/-- An access of a command writes no byte outside the surface. -/
theorem AccessShape.writeAt_outside {o : OperandRegs} {l : List Access} (h : AccessShape o l) {x : Word} (hx : ¬ o.OnSurface x) :
    ∀ a ∈ l, a.writeAt x = none := by
  cases h with
  | write raw hin => exact writeAt_containerWrite_outside fun hlt => hx (hin.onSurface hlt)
  | read c addr => exact writeAt_containerRead c addr x
  | palette h => exact writeAt_of_palette h x

theorem runCommand_of_exec {i : Instr} {s t : State} (ht : exec i s = .next t) : runCommand i (planOf i) s = t :=
  Host.Outcome.next.inj ((exec_eq_runCommand i s).symm.trans ht)

theorem exec_keeps_outside {i : Instr} {s t : State} {x : Word} (hmem : s.mem.wf = true) (ht : exec i s = .next t)
    (hx : ¬ s.operands.OnSurface x) : readByte t.mem x = readByte s.mem x := by
  obtain rfl := runCommand_of_exec ht
  have unwritten {p : Plan} (hplan : planOf i s.operands = .ok p) :
      ∀ a ∈ p.accesses.drop (s.flightOf i).issued, a.writeAt x = none :=
    fun a ha => (planOf_accessShape hplan).writeAt_outside hx a (List.mem_of_mem_drop ha)
  obtain ⟨c, -, hrun⟩ | ⟨p, f', s', hplan, hacc, -, hrun⟩ | ⟨p, f', s', hplan, hacc, -, hrun⟩ :=
    runCommand_cases i (planOf i) s
  · rw [hrun, raiseFault_mem]
  · rw [hrun, complete_mem]
    exact readByte_runAccesses_of_unwritten hmem hacc (unwritten hplan)
  · rw [hrun]
    exact readByte_runAccesses_of_unwritten hmem hacc (unwritten hplan)

theorem tick_keeps_outside {s : State} {x : Word} (hmem : s.mem.wf = true) (hx : ¬ s.operands.OnSurface x) :
    readByte s.tick.mem x = readByte s.mem x := by
  obtain ⟨-, htick⟩ | ⟨f, c, -, htick⟩ | ⟨f, i, p, hbusy, -, hplan, hnext⟩ := tick_cases s
  · rw [htick]
  · rw [htick, raiseFault_mem]
  · obtain ⟨-, htick⟩ | ⟨a, rest, hdrop, ⟨-, htick⟩ | ⟨f', s', hacc, htick⟩⟩ := hnext
    · rw [htick, complete_mem]
    · rw [htick]
    · have hops : s.operands = f.ops := by simp only [State.operands, hbusy]
      have ha : a ∈ p.accesses := List.mem_of_mem_drop (hdrop ▸ List.mem_cons_self)
      rw [htick]
      exact (readByte_performAccess hmem hacc x).trans
        (by rw [(planOf_accessShape hplan).writeAt_outside (hops ▸ hx) a ha]; rfl)

/-- Settles O25: every write access of a command lies in one container, and its exact end is inside the surface. -/
theorem writesStayInsideSurface : Obligations.WritesStayInsideSurface := by
  unfold Obligations.WritesStayInsideSurface
  intro s t x hmem hturn hchanged
  by_contra houtside
  refine hchanged ?_
  obtain ⟨i, ht⟩ | rfl := hturn
  · exact exec_keeps_outside hmem ht houtside
  · exact tick_keeps_outside hmem houtside

end Sys2Proof.Machine

/-! # A command one access at a time (R61, R66, R74, R234; log 2) -/

namespace Sys2Proof.Machine

/-! ## How far a list of accesses comes -/

/-- Accesses that stop short are those before the first one that the memory does not admit, and that one follows. -/
theorem runAccesses_stuck {l : List Access} {f f' : Flight} {s s' : State} (h : runAccesses l f s = (f', s', false)) :
    ∃ done a rest, l = done ++ a :: rest ∧ runAccesses done f s = (f', s', true) ∧ s.admitsAll [a] = false := by
  induction l generalizing f s with
  | nil => cases h
  | cons b l ih =>
    simp only [runAccesses] at h
    split at h
    · next hnone =>
      cases h
      exact ⟨[], b, l, rfl, rfl, performAccess_none.1 hnone⟩
    · next f1 s1 hperform =>
      obtain ⟨-, -, -, hframe, -, -⟩ := performAccess_frame hperform
      obtain ⟨done, a, rest, rfl, hdone, ha⟩ := ih h
      refine ⟨b :: done, a, rest, rfl, by simp only [runAccesses, hperform, hdone], ?_⟩
      rwa [admitsAll_congr (by rw [hframe])] at ha

/-- Accesses that all complete are counted. -/
theorem runAccesses_issued {l : List Access} {f f' : Flight} {s s' : State} (h : runAccesses l f s = (f', s', true)) :
    f'.issued = f.issued + l.length := by
  induction l generalizing f s with
  | nil => cases h; rfl
  | cons a l ih =>
    simp only [runAccesses] at h
    split at h
    · cases h
    · next f1 s1 hperform =>
      obtain ⟨-, -, hissued, -⟩ := performAccess_frame hperform
      rw [ih h, hissued, List.length_cons]
      omega

theorem runAccesses_append {l l' : List Access} {f f' : Flight} {s s' : State} (h : runAccesses l f s = (f', s', true)) :
    runAccesses (l ++ l') f s = runAccesses l' f' s' := by
  induction l generalizing f s with
  | nil => cases h; rfl
  | cons a l ih =>
    simp only [List.cons_append, runAccesses] at h ⊢
    split at h
    · cases h
    · exact ih h

/-! ## A turn of the engine is the next access, or the end (R74) -/

/-- The state with another flight in its engine. -/
def State.withFlight (s : State) (f : Flight) : State := { s with engine := .busy f }

/-- An access does not look at the engine that performs it. -/
theorem performAccess_withFlight (a : Access) (f g : Flight) (s : State) :
    performAccess a f (s.withFlight g) = (performAccess a f s).map fun q => (q.1, q.2.withFlight g) := by
  cases a with
  | memWrite addr w v =>
    change (if s.admits .write w addr then _ else _) = Option.map _ (if s.admits .write w addr then _ else _)
    split <;> rfl
  | memRead addr w =>
    change (if s.admits .read w addr then _ else _) = Option.map _ (if s.admits .read w addr then _ else _)
    split <;> rfl
  | palWrite idx e => rfl

/-- A flight whose word decodes and whose checks pass, so that it runs the accesses of a plan. -/
structure Flight.Runs (f : Flight) (i : Instr) (p : Plan) : Prop where
  decodes : decode f.cmd = .ok i
  passes : planOf i f.ops = .ok p

theorem Flight.Runs.of_same_command {f f' : Flight} {i : Instr} {p : Plan} (h : f.Runs i p) (hcmd : f'.cmd = f.cmd)
    (hops : f'.ops = f.ops) : f'.Runs i p :=
  ⟨hcmd ▸ h.decodes, hops ▸ h.passes⟩

theorem Flight.Runs.accesses_eq {f : Flight} {i : Instr} {p : Plan} (h : f.Runs i p) : f.accesses = p.accesses := by
  simp only [Flight.accesses, h.decodes, h.passes]

theorem tick_of_runs {f : Flight} {i : Instr} {p : Plan} (h : f.Runs i p) (s : State) :
    (s.withFlight f).tick = tickPlan p f (s.withFlight f) := by
  simp only [State.tick, State.withFlight, h.decodes, h.passes]

/-- The engine's turn at an admitted access performs it. -/
theorem tick_of_access {f f' : Flight} {i : Instr} {p : Plan} {s s' : State} {a : Access} {rest : List Access} (h : f.Runs i p)
    (hnext : p.accesses.drop f.issued = a :: rest) (hperform : performAccess a f s = some (f', s')) :
    (s.withFlight f).tick = s'.withFlight f' := by
  rw [tick_of_runs h, tickPlan, hnext]
  simp only [performAccess_withFlight, hperform, Option.map_some]
  rfl

/-- The engine's turn at an access that the memory does not admit changes nothing (R61). -/
theorem tick_of_denied {f : Flight} {i : Instr} {p : Plan} {s : State} {a : Access} {rest : List Access} (h : f.Runs i p)
    (hnext : p.accesses.drop f.issued = a :: rest) (hdenied : s.admitsAll [a] = false) :
    (s.withFlight f).tick = s.withFlight f := by
  rw [tick_of_runs h, tickPlan, hnext]
  simp only [performAccess_withFlight, performAccess_none.2 hdenied, Option.map_none]

/-- The engine's turn after the last access ends the command. -/
theorem tick_of_done {f : Flight} {i : Instr} {p : Plan} (h : f.Runs i p) (hnext : p.accesses.drop f.issued = []) (s : State) :
    (s.withFlight f).tick = s.complete p.result f.data := by
  rw [tick_of_runs h, tickPlan, hnext]
  cases p.result <;> rfl

/-- Accesses that all complete are as many turns of the engine. -/
theorem tick_iterate_of_accesses {l rest : List Access} {f f' : Flight} {i : Instr} {p : Plan} {s s' : State} (h : f.Runs i p)
    (hnext : p.accesses.drop f.issued = l ++ rest) (hrun : runAccesses l f s = (f', s', true)) :
    State.tick^[l.length] (s.withFlight f) = s'.withFlight f' := by
  induction l generalizing f s with
  | nil => cases hrun; rfl
  | cons a l ih =>
    simp only [runAccesses] at hrun
    split at hrun
    · cases hrun
    · next f1 s1 hperform =>
      obtain ⟨hcmd, hops, hissued, -⟩ := performAccess_frame hperform
      have hnext1 : p.accesses.drop f1.issued = l ++ rest := by
        rw [hissued, ← List.drop_drop, hnext]
        rfl
      rw [List.length_cons, Function.iterate_succ_apply, tick_of_access h hnext hperform]
      exact ih (h.of_same_command hcmd hops) hnext1 hrun

theorem withFlight_of_busy {s : State} {f : Flight} (hbusy : s.engine = .busy f) : s.withFlight f = s := by
  rw [State.withFlight, ← hbusy]

theorem flightOf_of_busy {s : State} {f : Flight} (hbusy : s.engine = .busy f) (i : Instr) : s.flightOf i = f := by
  simp only [State.flightOf, hbusy]

theorem operands_of_busy {s : State} {f : Flight} (hbusy : s.engine = .busy f) : s.operands = f.ops := by
  simp only [State.operands, hbusy]

theorem flight_atStart {s : State} {f : Flight} (hbusy : s.engine = .busy f) (hstart : s.atStart = true) :
    f.issued = 0 ∧ f.data = 0 ∧ f.old = [] := by
  simpa [State.atStart, hbusy, and_assoc] using hstart

/-- Settles O38: the accesses that complete are as many turns of the engine, and one more turn ends the command. -/
theorem wholeCommandIsAccessesInTurn : Obligations.WholeCommandIsAccessesInTurn := by
  unfold Obligations.WholeCommandIsAccessesInTurn
  intro s t f i hbusy hdecode ht
  obtain rfl := runCommand_of_exec ht
  have hcases := runCommand_cases i (planOf i) s
  rw [flightOf_of_busy hbusy, operands_of_busy hbusy] at hcases
  obtain ⟨c, hfault, hrun⟩ | ⟨p, f', s', hplan, hacc, -, hrun⟩ | ⟨p, f', s', hplan, hacc, -, hrun⟩ := hcases
  · refine ⟨1, ?_⟩
    rw [hrun]
    simp only [Function.iterate_one, State.tick, hbusy, hdecode, hfault]
  · have hruns : f.Runs i p := ⟨hdecode, hplan⟩
    obtain ⟨hcmd, hops, -, -, -⟩ := runAccesses_frame hacc
    have hend : p.accesses.drop f'.issued = [] := by
      rw [runAccesses_issued hacc, ← List.drop_drop, List.drop_length]
    refine ⟨(p.accesses.drop f.issued).length + 1, ?_⟩
    have hturns := tick_iterate_of_accesses hruns (List.append_nil _).symm hacc
    rw [withFlight_of_busy hbusy] at hturns
    rw [Function.iterate_succ_apply', hturns, tick_of_done (hruns.of_same_command hcmd hops) hend, hrun]
  · obtain ⟨done, a, rest, hsplit, hdone, -⟩ := runAccesses_stuck hacc
    refine ⟨done.length, ?_⟩
    have hturns := tick_iterate_of_accesses ⟨hdecode, hplan⟩ hsplit hdone
    rw [withFlight_of_busy hbusy] at hturns
    rw [hturns, hrun]
    rfl

/-! ## A stuck command (R61; log 17) -/

/-- A whole command that leaves BUSY = 1 stands before an access of its plan that the memory does not admit, with its earlier
accesses done. -/
theorem exec_busy {i : Instr} {s t : State} {g : Flight} (ht : exec i s = .next t) (hbusy : t.engine = .busy g) :
    ∃ p done a rest s', planOf i s.operands = .ok p ∧ p.accesses.drop (s.flightOf i).issued = done ++ a :: rest ∧
      runAccesses done (s.flightOf i) s = (g, s', true) ∧ s.admitsAll [a] = false ∧ t = s'.withFlight g := by
  obtain rfl := runCommand_of_exec ht
  obtain ⟨c, -, hrun⟩ | ⟨p, f', s', -, -, -, hrun⟩ | ⟨p, f', s', hplan, hacc, -, hrun⟩ :=
    runCommand_cases i (planOf i) s
  · rw [hrun] at hbusy; cases hbusy
  · rw [hrun] at hbusy; cases hbusy
  · rw [hrun] at hbusy
    cases hbusy
    obtain ⟨done, a, rest, hsplit, hdone, ha⟩ := runAccesses_stuck hacc
    exact ⟨p, done, a, rest, s', hplan, hsplit, hdone, ha, hrun⟩

/-- The whole command, run again from an access that the memory does not admit, changes nothing. -/
theorem exec_of_denied {f : Flight} {i : Instr} {p : Plan} {s : State} {a : Access} {rest : List Access} (h : f.Runs i p)
    (hnext : p.accesses.drop f.issued = a :: rest) (hdenied : s.admitsAll [a] = false) :
    exec i (s.withFlight f) = .next (s.withFlight f) := by
  rw [exec_eq_runCommand, runCommand, flightOf_of_busy (s := s.withFlight f) rfl]
  simp only [h.passes, hnext, runAccesses, performAccess_withFlight, performAccess_none.2 hdenied, Option.map_none]
  rfl

/-- Settles O37: the access at which the command stands is denied in every later turn too. -/
theorem stuckCommandHasNoFurtherEffect : Obligations.StuckCommandHasNoFurtherEffect := by
  unfold Obligations.StuckCommandHasNoFurtherEffect
  intro i s t hcmd ht hbusy
  obtain ⟨g, hg⟩ := (busy_iff t).1 hbusy
  obtain ⟨p, done, a, rest, s', hplan, hsplit, hdone, ha, rfl⟩ := exec_busy ht hg
  obtain ⟨hgcmd, hgops, hframe, -, -⟩ := runAccesses_frame hdone
  have hruns : g.Runs i p :=
    ⟨by rw [hgcmd, flightOf_cmd s i hcmd, decode_encode], by rw [hgops, flightOf_ops, hplan]⟩
  have hnext : p.accesses.drop g.issued = a :: rest := by
    rw [runAccesses_issued hdone, ← List.drop_drop, hsplit, List.drop_left]
  have hdenied : s'.admitsAll [a] = false := by rwa [admitsAll_congr (by rw [hframe])]
  exact ⟨(engineTurn_of_decode rfl hruns.decodes).trans (exec_of_denied hruns hnext hdenied),
    tick_of_denied hruns hnext hdenied⟩

/-! ## Where a command stands that the memory stops (R61, R66) -/

theorem exec_busy_iff {i : Instr} {s t : State} {p : Plan} (hplan : planOf i s.operands = .ok p) (ht : exec i s = .next t) :
    t.busy = false ↔ s.admitsAll (p.accesses.drop (s.flightOf i).issued) = true := by
  obtain rfl := runCommand_of_exec ht
  obtain ⟨c, hfault, -⟩ | ⟨p', f', s', hplan', -, hall, hrun⟩ | ⟨p', f', s', hplan', -, hall, hrun⟩ :=
    runCommand_cases i (planOf i) s
  · cases hplan.symm.trans hfault
  · cases hplan.symm.trans hplan'
    simp [hrun, hall]
  · cases hplan.symm.trans hplan'
    simp [hrun, hall, State.busy]

/-- Accesses of the framebuffer port do not touch the palette RAM. -/
theorem runAccesses_pal {l : List Access} (hl : ∀ a ∈ l, ∀ idx e, a ≠ .palWrite idx e) {f f' : Flight} {s s' : State}
    {b : Bool} (h : runAccesses l f s = (f', s', b)) : s'.pal = s.pal := by
  induction l generalizing f s with
  | nil => cases h; rfl
  | cons a l ih =>
    obtain ⟨ha, hl⟩ := List.forall_mem_cons.1 hl
    simp only [runAccesses] at h
    split at h
    · cases h; rfl
    · next f1 s1 hperform =>
      rw [ih hl h]
      obtain ⟨_, _, _, -, -, -, rfl⟩ | ⟨_, _, _, _, -, -, -, -, rfl⟩ | ⟨idx, e, rfl, -, -⟩ := performAccess_cases hperform
      · rfl
      · rfl
      · exact absurd rfl (ha idx e)

/-- A command with an access that the memory does not admit writes no palette entry. -/
theorem AccessShape.no_palWrite {o : OperandRegs} {l : List Access} (h : AccessShape o l) {a : Access} (ha : a ∈ l) {s : State}
    (hdenied : s.admitsAll [a] = false) : ∀ b ∈ l, ∀ idx e, b ≠ .palWrite idx e := by
  cases h with
  | @write c _ raw _ => cases c <;> simp [containerWrite]
  | read c addr => cases c <;> simp [containerRead]
  | palette h =>
    obtain ⟨idx, e, rfl⟩ := h a ha
    simp [State.admitsAll] at hdenied

/-- Accesses of a container write but not the last of them leave that many bytes written (R64, R66). -/
theorem byteAfter_take_containerWrite (c : Container) (addr raw : Word) {k : Nat}
    (hk : k < (containerWrite c addr raw).length) (m : Memory) (x : Word) :
    byteAfter ((containerWrite c addr raw).take k) m x =
      if (x - addr).toNat < k then raw.extractLsb' (8 * (x - addr).toNat) 8 else readByte m x := by
  cases c
  case c24 => exact byteAfter_take_c24 addr raw (Nat.le_of_lt hk) m x
  case c8 | c16 | c32 =>
    obtain rfl : k = 0 := Nat.lt_one_iff.1 hk
    rfl

/-- Settles O36: the accesses before the denied one are the ones performed, and the memory stands as they leave it. -/
theorem stuckAtFirstDeniedAccess : Obligations.StuckAtFirstDeniedAccess := by
  unfold Obligations.StuckAtFirstDeniedAccess
  intro i s t p hstart hplan ht
  obtain ⟨hissued, -, -⟩ := flightOf_atStart s i hstart
  refine ⟨by rw [exec_busy_iff hplan ht, hissued, List.drop_zero], fun g hbusy => ?_⟩
  obtain ⟨p', done, a, rest, s', hplan', hsplit, hdone, ha, rfl⟩ := exec_busy ht hbusy
  cases hplan.symm.trans hplan'
  rw [hissued, List.drop_zero] at hsplit
  have hlen : g.issued = done.length := by rw [runAccesses_issued hdone, hissued, Nat.zero_add]
  have htake : p.accesses.take g.issued = done := by rw [hlen, hsplit, List.take_left]
  have hdrop : p.accesses.drop g.issued = a :: rest := by rw [hlen, hsplit, List.drop_left]
  have hshape := planOf_accessShape hplan
  have honce : WriteOnce done := hshape.writeOnce.sublist (htake ▸ List.take_sublist _ _)
  have hpal : s'.pal = s.pal :=
    runAccesses_pal (fun b hb => hshape.no_palWrite (by simp [hsplit]) ha b (by simp [hsplit, hb])) hdone
  obtain ⟨-, -, hframe, -, -⟩ := runAccesses_frame hdone
  have hmem (hwf : s.mem.wf = true) (x : Word) : readByte s'.mem x = byteAfter (p.accesses.take g.issued) s.mem x := by
    rw [htake, readByte_runAccesses honce hwf hdone]
  refine ⟨?done, ?denied, ?rw, ?resultRaw, ?resultRgb, ?status, hpal, hmem, ?container⟩
  case done => rw [htake, ← runAccesses_done done (s.flightOf i) s, hdone]
  case denied => rw [hdrop]; exact ha
  case container =>
    intro hwf c addr raw hwrite x
    have hshort : g.issued < (containerWrite c addr raw).length := by rw [← hwrite, hsplit, hlen]; simp
    exact (hmem hwf x).trans (hwrite ▸ byteAfter_take_containerWrite c addr raw hshort s.mem x)
  all_goals exact hframe ▸ rfl

/-! ## Reset in the middle of a 24-bit PUTRAW (R66, R72, R231, R234) -/

theorem planPutraw_of_pixelOk {o : OperandRegs} {c : Container} (h : o.pixelOk c = true) :
    planOf .putraw o = .ok { accesses := containerWrite c (pixelAddr o c) o.rawIn, result := .nothing } := by
  obtain ⟨hformat, htarget⟩ := (pixelTarget_ok o c (pixelAddr o c)).2 ⟨h, rfl⟩
  exact (bind_ok _ _ _).2 ⟨c, (checkFormat_ok o c).2 hformat, (bind_ok _ _ _).2 ⟨_, htarget, rfl⟩⟩

/-- The turns of the engine from a command's start perform its accesses, as long as the memory admits them. -/
theorem tick_iterate_of_admitted {f : Flight} {i : Instr} {p : Plan} {s : State} (h : f.Runs i p) (hbusy : s.engine = .busy f)
    (hissued : f.issued = 0) (hall : s.admitsAll p.accesses = true) {k : Nat} (hk : k ≤ p.accesses.length) :
    ∃ f' s', runAccesses (p.accesses.take k) f s = (f', s', true) ∧ State.tick^[k] s = s'.withFlight f' := by
  have hsplit : p.accesses.drop f.issued = p.accesses.take k ++ p.accesses.drop k := by
    rw [hissued, List.drop_zero, List.take_append_drop]
  have hadmitted : s.admitsAll (p.accesses.take k) = true := by
    rw [State.admitsAll, List.all_eq_true] at hall ⊢
    exact fun a ha => hall a (List.mem_of_mem_take ha)
  rcases hrun : runAccesses (p.accesses.take k) f s with ⟨f', s', b⟩
  have hdone := runAccesses_done (p.accesses.take k) f s
  rw [hrun, hadmitted] at hdone
  obtain rfl : b = true := hdone
  have hturns := tick_iterate_of_accesses h hsplit hrun
  rw [withFlight_of_busy hbusy, List.length_take, Nat.min_eq_left hk] at hturns
  exact ⟨f', s', rfl, hturns⟩

/-- Settles O40: `k` turns write the first `k` bytes of the container, and reset keeps the memory. -/
theorem resetLeavesCompletedBytes : Obligations.ResetLeavesCompletedBytes := by
  unfold Obligations.ResetLeavesCompletedBytes
  intro s f k hwf hbusy hcmd hstart hok hadmits hk x
  have hruns : f.Runs .putraw _ := ⟨hcmd ▸ decode_encode .putraw, planPutraw_of_pixelOk hok⟩
  obtain ⟨hissued, -, -⟩ := flight_atStart hbusy hstart
  have hall : s.admitsAll (containerWrite .c24 (pixelAddr f.ops .c24) f.ops.rawIn) = true :=
    (admitsAll_containerWrite s _ _ _).trans hadmits
  obtain ⟨f', s', hrun, hturns⟩ := tick_iterate_of_admitted hruns hbusy hissued hall (k := k) hk
  have honce : WriteOnce ((containerWrite .c24 (pixelAddr f.ops .c24) f.ops.rawIn).take k) :=
    (writeOnce_containerWrite _ _ _).sublist (List.take_sublist _ _)
  rw [hturns, resetBlock_mem]
  exact (readByte_runAccesses honce hwf hrun x).trans (byteAfter_take_c24 _ _ hk _ _)

end Sys2Proof.Machine

/-! # Host accesses of the framebuffer, with and without a race (R62, R72, R75, R76; log 7, log 13, log 19) -/

namespace Sys2Proof.Machine

/-! ## The bytes that a host access names -/

/-- Bytes assembled little-endian have those bytes (R62). -/
theorem hasBytes_assembleLE (g : Word → Byte) (a : Word) {n : Nat} (hn : n ≤ 4) :
    hasBytes (assembleLE g a n) n fun j => g (a + BitVec.ofNat 32 j) := by
  constructor
  · intro j hj
    ext i hi
    rw [BitVec.getElem_extractLsb', assembleLE_getLsbD g a n _ hn, show (8 * j + i) / 8 = j by omega,
      show (8 * j + i) % 8 = i by omega, BitVec.getLsbD_eq_getElem hi]
    simp [show 8 * j + i < 8 * n by omega]
  · refine Nat.lt_pow_two_of_testBit _ fun i hi => ?_
    rw [BitVec.testBit_toNat, assembleLE_getLsbD g a n i hn]
    simp [show ¬ i < 8 * n by omega]

theorem hasBytes_congr {d : Word} {n : Nat} {g h : Nat → Byte} (hd : hasBytes d n g) (heq : ∀ j, j < n → g j = h j) :
    hasBytes d n h :=
  ⟨fun j hj => (hd.1 j hj).trans (heq j hj), hd.2⟩

theorem add_ofNat_succ (a : Word) (j : Nat) : a + 1 + BitVec.ofNat 32 j = a + BitVec.ofNat 32 (j + 1) := by
  rw [BitVec.add_assoc, show (1 : Word) = BitVec.ofNat 32 1 from rfl, ← BitVec.ofNat_add, Nat.add_comm]

/-- A host access meets no write of the command exactly when none covers one of its bytes (R76). -/
theorem writeRace_eq_false_iff (f : Flight) (a : Word) (n : Nat) :
    f.writeRace a n = false ↔ ∀ j, j < n → writeCovering (a + BitVec.ofNat 32 j) 0 f.accesses = none := by
  induction n generalizing a with
  | zero => simp [Flight.writeRace]
  | succ n ih =>
    have hfirst : a + BitVec.ofNat 32 0 = a := BitVec.add_zero a
    simp only [Flight.writeRace, Bool.or_eq_false_iff, ih, add_ofNat_succ, Nat.forall_lt_succ_left', hfirst,
      Option.isSome_eq_false_iff, Option.isNone_iff_eq_none]

/-! ## Without a race (R75) -/

theorem hostByte_of_no_write {f : Flight} {x : Word} (h : writeCovering x 0 f.accesses = none) (s : State) :
    f.hostByte s x = readByte s.mem x := by
  simp only [Flight.hostByte, h]

theorem writtenByte_of_no_write {f : Flight} {x : Word} (h : writeCovering x 0 f.accesses = none) : f.writtenByte x = none := by
  simp only [Flight.writtenByte, h]

theorem hostWriteByte_of_no_write {f : Flight} {x : Word} (h : writeCovering x 0 f.accesses = none) (s : State) (v : Byte) :
    f.hostWriteByte s x v = { s with mem := writeByte s.mem x v } := by
  simp only [Flight.hostWriteByte, writtenByte_of_no_write h]

theorem hostWriteBytes_of_no_race {f : Flight} {a : Word} {n : Nat} (h : f.writeRace a n = false) (s : State) (v : Word) :
    f.hostWriteBytes s a n v = { s with mem := writeBytes s.mem a n v } := by
  induction n generalizing a s v with
  | zero => rfl
  | succ n ih =>
    obtain ⟨hhead, htail⟩ := Bool.or_eq_false_iff.1 h
    rw [Flight.hostWriteBytes, hostWriteByte_of_no_write (Option.not_isSome_iff_eq_none.1 (by simp [hhead])), ih htail]
    rfl

theorem hostFbRead_of_busy {s : State} {f : Flight} (hbusy : s.engine = .busy f) (a : Word) (w : Width) :
    s.hostFbRead a w =
      { s with
        hostData := assembleLE (f.hostByte s) a w.bytes
        draws := if f.writeRace a w.bytes then s.draws + f.accesses.length else s.draws } := by
  simp only [State.hostFbRead, hbusy]

theorem hostFbWrite_of_no_readRace {s : State} {f : Flight} (hbusy : s.engine = .busy f) {a : Word} {w : Width}
    (h : f.readRace a w.bytes = false) (v : Word) : s.hostFbWrite a w v = f.hostWriteBytes s a w.bytes v := by
  simp only [State.hostFbWrite, hbusy, h, Bool.false_eq_true, if_false]

theorem hostFbRead_without_race {s : State} {a : Word} {w : Width} (h : ∀ f, s.engine = .busy f → f.writeRace a w.bytes = false) :
    ∃ d, s.hostFbRead a w = { s with hostData := d } ∧ hasBytes d w.bytes fun j => readByte s.mem (a + BitVec.ofNat 32 j) := by
  have hw := width_bytes_le w
  cases hengine : s.engine with
  | idle => exact ⟨_, by simp only [State.hostFbRead, hengine]; rfl, hasBytes_assembleLE _ a hw⟩
  | busy f =>
    have hrace := h f hengine
    refine ⟨assembleLE (f.hostByte s) a w.bytes,
      by rw [hostFbRead_of_busy hengine]; simp only [hrace, Bool.false_eq_true, if_false, hengine], ?_⟩
    exact hasBytes_congr (hasBytes_assembleLE _ a hw) fun j hj =>
      hostByte_of_no_write ((writeRace_eq_false_iff f a _).1 hrace j hj) s

theorem hostFbWrite_without_race {s : State} {a : Word} {w : Width}
    (h : ∀ f, s.engine = .busy f → f.writeRace a w.bytes = false ∧ f.readRace a w.bytes = false) (v : Word) :
    s.hostFbWrite a w v = { s with mem := writeBytes s.mem a w.bytes v } := by
  cases hengine : s.engine with
  | idle => simp only [State.hostFbWrite, hengine]
  | busy f =>
    obtain ⟨hwrite, hread⟩ := h f hengine
    rw [hostFbWrite_of_no_readRace hengine hread, hostWriteBytes_of_no_race hwrite, hengine]

/-- Settles O60: without a race a host access is a read or a write of the memory alone. -/
theorem hostAccessesWithoutRace : Obligations.HostAccessesWithoutRace := by
  unfold Obligations.HostAccessesWithoutRace
  intro s a w hwf
  have hw := width_bytes_le w
  constructor
  · intro hfree
    obtain ⟨d, hread, hd⟩ := hostFbRead_without_race hfree
    exact ⟨d, congrArg Host.Outcome.next hread, hd⟩
  · intro hfree v
    exact ⟨_, congrArg Host.Outcome.next (hostFbWrite_without_race hfree v), rfl,
      fun x => readByte_writeBytes _ _ _ _ _ hwf (by omega)⟩

/-! ## A host read that meets a write of the command (R72, R76; log 7, log 19) -/

theorem flight_accessShape (f : Flight) : AccessShape f.ops f.accesses := by
  unfold Flight.accesses
  split
  · exact .palette nofun
  · split
    · exact .palette nofun
    · next hplan => exact planOf_accessShape hplan

theorem accesses_of_same_command {f g : Flight} (hcmd : g.cmd = f.cmd) (hops : g.ops = f.ops) : g.accesses = f.accesses := by
  simp only [Flight.accesses, hcmd, hops]

/-- A command that writes a byte of the framebuffer is the write of one container. -/
theorem AccessShape.eq_containerWrite_of_written {o : OperandRegs} {l : List Access} (h : AccessShape o l) {x : Word}
    (hx : writeCovering x 0 l ≠ none) : ∃ c addr raw, l = containerWrite c addr raw := by
  cases h with
  | @write c addr raw _ => exact ⟨c, addr, raw, rfl⟩
  | read c addr => exact absurd ((writeCovering_eq_none_iff x 0 _).2 (writeAt_containerRead c addr x)) hx
  | palette h => exact absurd ((writeCovering_eq_none_iff x 0 _).2 (writeAt_of_palette h x)) hx

theorem writeRace_of_same_accesses {f g : Flight} (h : g.accesses = f.accesses) (a : Word) (n : Nat) :
    g.writeRace a n = f.writeRace a n := by
  induction n generalizing a with
  | zero => rfl
  | succ n ih => rw [Flight.writeRace, Flight.writeRace, h, ih]

theorem exists_written_of_writeRace {f : Flight} {a : Word} {n : Nat} (h : f.writeRace a n = true) :
    ∃ x, writeCovering x 0 f.accesses ≠ none := by
  by_contra hnone
  push Not at hnone
  simp [(writeRace_eq_false_iff f a n).2 fun j _ => hnone _] at h

/-- Write accesses draw no free value. -/
theorem runAccesses_draws {l : List Access} (hl : ∀ a ∈ l, ∃ addr w v, a = .memWrite addr w v) {f f' : Flight} {s s' : State}
    {b : Bool} (h : runAccesses l f s = (f', s', b)) : s'.draws = s.draws := by
  induction l generalizing f s with
  | nil => cases h; rfl
  | cons a l ih =>
    obtain ⟨⟨addr, w, v, rfl⟩, hrest⟩ := List.forall_mem_cons.1 hl
    simp only [runAccesses] at h
    split at h
    · cases h; rfl
    · next f1 s1 hperform =>
      rw [ih hrest h]
      obtain ⟨_, _, _, -, -, -, rfl⟩ | ⟨_, _, _, _, ⟨⟩, -⟩ | ⟨_, _, ⟨⟩, -⟩ := performAccess_cases hperform
      rfl

theorem mem_containerWrite {c : Container} {addr raw : Word} : ∀ a ∈ containerWrite c addr raw, ∃ x w v, a = .memWrite x w v := by
  cases c <;> simp [containerWrite]

/-- A host read meets a write: the choices that decide which of its bytes are new (log 7). -/
theorem hostFbRead_of_race {s : State} {f : Flight} (hbusy : s.engine = .busy f) {a : Word} {w : Width}
    (hrace : f.writeRace a w.bytes = true) :
    s.hostFbRead a w =
      { s with hostData := assembleLE (f.hostByte s) a w.bytes, draws := s.draws + f.accesses.length } := by
  rw [hostFbRead_of_busy hbusy, hrace]
  rfl

/-! What the flight remembers (log 7). -/

theorem findKey_append {α : Type} (k : Nat) (l l' : List (Nat × α)) : findKey k (l ++ l') = (findKey k l).or (findKey k l') := by
  induction l with
  | nil => rfl
  | cons e l ih =>
    simp only [List.cons_append, findKey]
    split
    · rfl
    · exact ih

theorem findKey_cellsAt (m : Memory) (a x : Word) {n : Nat} (hn : n < 2 ^ 32) :
    findKey x.toNat (cellsAt m a n) = if covers a n x then some (readByte m x) else none := by
  simp only [covers, decide_eq_true_eq]
  induction n generalizing a with
  | zero => rfl
  | succ n ih =>
    have hkey : x.toNat = a.toNat ↔ x = a := BitVec.toNat_inj
    simp only [cellsAt, findKey, hkey, ih (a + 1) (by omega)]
    by_cases hx : x = a
    · simp [hx]
    · obtain ⟨hnext, hpos⟩ := sub_succ_toNat x a hx
      have hiff : (x - a).toNat - 1 < n ↔ (x - a).toNat < n + 1 := by omega
      simp only [hx, if_false, hnext, hiff]

/-- A byte as the flight knows it from before all the accesses it remembers. -/
theorem earlierByte_length (f : Flight) (m : Memory) (x : Word) :
    f.earlierByte m f.old.length x = (findKey x.toNat f.old.reverse.flatten).getD (readByte m x) := by
  rw [Flight.earlierByte, List.take_length]

/-- An access keeps the flight's account of each byte's first value: it remembers the bytes that it replaces. -/
theorem earlierByte_performAccess {a : Access} {f f' : Flight} {s s' : State} (hmem : s.mem.wf = true)
    (h : performAccess a f s = some (f', s')) (x : Word) :
    f'.earlierByte s'.mem f'.old.length x = f.earlierByte s.mem f.old.length x := by
  rw [earlierByte_length, earlierByte_length, readByte_performAccess hmem h]
  obtain ⟨addr, w, v, rfl, -, rfl, -⟩ | ⟨addr, w, v, d, rfl, -, -, rfl, -⟩ | ⟨idx, e, rfl, rfl, -⟩ := performAccess_cases h
  · have hw := width_bytes_le w
    simp only [List.reverse_cons, List.flatten_append, List.flatten_singleton, findKey_append]
    rw [findKey_cellsAt _ _ _ (by omega)]
    cases findKey x.toNat f.old.reverse.flatten with
    | some v => rfl
    | none =>
      by_cases hx : covers addr w.bytes x = true
      · simp [hx]
      · simp [hx, Access.writeAt]
  · rfl
  · rfl

theorem earlierByte_runAccesses {l : List Access} {f f' : Flight} {s s' : State} {b : Bool} (hmem : s.mem.wf = true)
    (h : runAccesses l f s = (f', s', b)) (x : Word) :
    f'.earlierByte s'.mem f'.old.length x = f.earlierByte s.mem f.old.length x := by
  induction l generalizing f s with
  | nil => cases h; rfl
  | cons a l ih =>
    simp only [runAccesses] at h
    split at h
    · cases h; rfl
    · next f1 s1 hperform =>
      obtain ⟨-, -, -, -, hwf, -⟩ := performAccess_frame hperform
      rw [ih (hwf hmem) h, earlierByte_performAccess hmem hperform]

/-- After any number of turns of the engine from a command's start, a command still in flight has done its first accesses. -/
theorem tick_iterate_busy {s : State} {f g : Flight} (hbusy : s.engine = .busy f) (hissued : f.issued = 0) {n : Nat}
    (hg : (State.tick^[n] s).engine = .busy g) :
    ∃ s', runAccesses (f.accesses.take g.issued) f s = (g, s', true) ∧ State.tick^[n] s = s'.withFlight g := by
  induction n generalizing g with
  | zero =>
    cases hbusy.symm.trans hg
    exact ⟨s, by rw [hissued]; rfl, (withFlight_of_busy hbusy).symm⟩
  | succ n ih =>
    rw [Function.iterate_succ_apply'] at hg ⊢
    obtain ⟨hidle, htick⟩ | ⟨f1, c, -, htick⟩ | ⟨f1, i, p, hbusy1, hdecode, hplan, hnext⟩ := tick_cases (State.tick^[n] s)
    · rw [htick, hidle] at hg; cases hg
    · rw [htick] at hg; cases hg
    · obtain ⟨s1, hrun, hstate⟩ := ih hbusy1
      obtain ⟨-, htick⟩ | ⟨a, rest, hdrop, ⟨-, htick⟩ | ⟨f2, s2, hperform, htick⟩⟩ := hnext
      · rw [htick] at hg; cases hg
      · rw [htick, hbusy1] at hg
        cases hg
        exact ⟨s1, hrun, htick.trans hstate⟩
      · rw [htick] at hg
        cases hg
        rw [hstate, performAccess_withFlight] at hperform
        obtain ⟨⟨f2', s1'⟩, hperform1, ⟨⟩⟩ := Option.map_eq_some_iff.1 hperform
        obtain ⟨hcmd, hops, -, -, -⟩ := runAccesses_frame hrun
        obtain ⟨-, -, hissued2, -⟩ := performAccess_frame hperform1
        have hall : p.accesses = f.accesses :=
          (Flight.Runs.accesses_eq ⟨hdecode, hplan⟩).symm.trans (accesses_of_same_command hcmd hops)
        refine ⟨s1', ?_, htick⟩
        rw [hissued2, List.take_add, runAccesses_append hrun, ← hall, hdrop]
        simp only [List.take_succ_cons, List.take_zero, runAccesses, hperform1]

theorem byteAfter_take_of_unwritten {l : List Access} {x : Word} (h : writeCovering x 0 l = none) (n : Nat) (m : Memory) :
    byteAfter (l.take n) m x = readByte m x := by
  rw [byteAfter_eq, writeCovering_take, h]
  rfl

theorem byteAfter_take_of_written {l : List Access} {x : Word} {k : Nat} {v : Byte} (h : writeCovering x 0 l = some (k, v))
    (n : Nat) (m : Memory) : byteAfter (l.take n) m x = if k < n then v else readByte m x := by
  rw [byteAfter_eq, writeCovering_take, h]
  by_cases hk : k < n <;> simp [hk, Option.filter_some]

/-- What a host sees of a byte that the command writes, after accesses of the engine alone: the new byte or the first one, as the
choice for that write falls (R72, R76). -/
theorem hostByte_of_written {f g : Flight} {s u : State} {x : Word} {k : Nat} {v : Byte} (hacc : g.accesses = f.accesses)
    (hmem : readByte u.mem x = byteAfter (f.accesses.take g.issued) s.mem x)
    (hold : g.earlierByte u.mem g.old.length x = readByte s.mem x) (hx : writeCovering x 0 f.accesses = some (k, v)) :
    g.hostByte u x = if Config.raceChoice (u.draws + k) then v else readByte s.mem x := by
  rw [byteAfter_take_of_written hx] at hmem
  simp only [Flight.hostByte, hacc, hx, hmem, hold]
  by_cases hk : k < g.issued <;> simp [hk]

/-- Settles O41: the model's choice for each access says which bytes the read sees; what an access replaced is remembered. -/
theorem racingReadReturnsOldOrNew : Obligations.RacingReadReturnsOldOrNew := by
  unfold Obligations.RacingReadReturnsOldOrNew
  constructor
  · intro s f x w hbusy hrace
    refine ⟨_, fun k => Config.raceChoice (s.draws + k), congrArg Host.Outcome.next (hostFbRead_of_race hbusy hrace),
      hasBytes_congr (hasBytes_assembleLE _ x (width_bytes_le w)) fun j _ => ?_⟩
    unfold Flight.hostByte
    cases writeCovering (x + BitVec.ofNat 32 j) 0 f.accesses with
    | none => rfl
    | some q =>
      by_cases hk : q.1 < f.issued <;> simp only [hk, if_true, if_false]
  · intro s f g n x w hwf hbusy hstart hg hrace
    obtain ⟨hissued, -, hnone⟩ := flight_atStart hbusy hstart
    obtain ⟨u, hrun, hstate⟩ := tick_iterate_busy hbusy hissued hg
    obtain ⟨hcmd, hops, -, -, -⟩ := runAccesses_frame hrun
    have hacc : g.accesses = f.accesses := accesses_of_same_command hcmd hops
    have hmem := readByte_runAccesses ((flight_accessShape f).writeOnce.sublist (List.take_sublist g.issued _)) hwf hrun
    have hold (y : Word) : g.earlierByte u.mem g.old.length y = readByte s.mem y := by
      rw [earlierByte_runAccesses hwf hrun, earlierByte_length, hnone]
      rfl
    have hdraws : u.draws = s.draws := by
      obtain ⟨y, hy⟩ := exists_written_of_writeRace hrace
      obtain ⟨c, addr, raw, hwrite⟩ := (flight_accessShape f).eq_containerWrite_of_written hy
      exact runAccesses_draws (fun a ha => mem_containerWrite a (hwrite ▸ List.mem_of_mem_take ha)) hrun
    have hread := hostFbRead_of_race (s := u.withFlight g) rfl ((writeRace_of_same_accesses hacc x w.bytes).trans hrace)
    rw [hstate]
    refine ⟨assembleLE (g.hostByte (u.withFlight g)) x w.bytes, fun k => Config.raceChoice (u.draws + k),
      congrArg Host.Outcome.next (hread.trans ?account),
      hasBytes_congr (hasBytes_assembleLE _ x (width_bytes_le w)) fun j _ => ?byte⟩
    case account => rw [hacc, ← hdraws]; rfl
    case byte =>
      cases hcover : writeCovering (x + BitVec.ofNat 32 j) 0 f.accesses with
      | none =>
        rw [hostByte_of_no_write (hacc ▸ hcover)]
        exact (hmem _).trans (byteAfter_take_of_unwritten hcover _ _)
      | some q => exact hostByte_of_written hacc (hmem _) (hold _) hcover

/-! ## A host write that meets a completed write of the command (R76; log 7) -/

theorem readCovering_containerWrite (c : Container) (addr raw y : Word) : readCovering y (containerWrite c addr raw) = false := by
  cases c <;> rfl

/-- A command that writes the framebuffer does not read it. -/
theorem AccessShape.readCovering_of_written {o : OperandRegs} {l : List Access} (h : AccessShape o l) {x : Word}
    (hx : writeCovering x 0 l ≠ none) (y : Word) : readCovering y l = false := by
  obtain ⟨c, addr, raw, rfl⟩ := h.eq_containerWrite_of_written hx
  exact readCovering_containerWrite c addr raw y

theorem readRace_eq_false {f : Flight} (h : ∀ y, readCovering y f.accesses = false) (a : Word) (n : Nat) :
    f.readRace a n = false := by
  induction n generalizing a with
  | zero => rfl
  | succ n ih => rw [Flight.readRace, h, ih, Bool.or_false]

theorem hostWriteByte_of_written {f : Flight} {x : Word} {k : Nat} {c : Byte} (hx : writeCovering x 0 f.accesses = some (k, c))
    (hk : k < f.issued) (s : State) (v : Byte) :
    f.hostWriteByte s x v =
      { s with mem := writeByte s.mem x (if Config.raceChoice s.draws then c else v), draws := s.draws + 1 } := by
  simp only [Flight.hostWriteByte, Flight.writtenByte, hx, hk, if_true]

/-- Settles O42: the byte already written is written again, with the command's value or the host's. -/
theorem racingWriteLeavesEitherByte : Obligations.RacingWriteLeavesEitherByte := by
  unfold Obligations.RacingWriteLeavesEitherByte
  intro s t f x k v h hwf hbusy hx hk ht
  have hread : f.readRace x Width.b1.bytes = false :=
    readRace_eq_false ((flight_accessShape f).readCovering_of_written (x := x) (by simp [hx])) x _
  obtain rfl : s.hostFbWrite x .b1 h = t := Host.Outcome.next.inj ht
  rw [hostFbWrite_of_no_readRace hbusy hread, Width.bytes, Flight.hostWriteBytes, Flight.hostWriteBytes,
    hostWriteByte_of_written hx hk]
  simp only [readByte_writeByte _ _ _ _ hwf, if_true]
  refine ⟨?either, fun y hy => if_neg hy, trivial⟩
  cases Config.raceChoice s.draws
  · exact .inr rfl
  · exact .inl rfl

/-! ## A GETPIX that a host write raced with (R76, R137; log 7) -/

theorem planGetpix_of_pixelOk {o : OperandRegs} {c : Container} (h : o.pixelOk c = true) :
    planOf .getpix o = .ok { accesses := containerRead c (pixelAddr o c), result := .container } := by
  obtain ⟨hformat, htarget⟩ := (pixelTarget_ok o c (pixelAddr o c)).2 ⟨h, rfl⟩
  exact (bind_ok _ _ _).2 ⟨c, (checkFormat_ok o c).2 hformat, (bind_ok _ _ _).2 ⟨_, htarget, rfl⟩⟩

theorem covers_self (a : Word) {n : Nat} (hn : 0 < n) : covers a n a = true := by
  simp [covers, hn]

theorem hostFbWrite_of_readRace {s : State} {f : Flight} (hbusy : s.engine = .busy f) {a : Word} {w : Width}
    (h : f.readRace a w.bytes = true) (v : Word) :
    s.hostFbWrite a w v =
      { s with
        mem := writeBytes s.mem a w.bytes v
        engine := .busy { f with old := cellsAt s.mem a w.bytes :: f.old } } := by
  simp only [State.hostFbWrite, hbusy, h, if_true]

/-- A read access that host writes raced with returns the bytes from before some of them (log 7). -/
theorem performAccess_of_raced {f : Flight} {s : State} {addr : Word} {w : Width} (hadmits : s.admits .read w addr = true)
    (hraced : f.raced addr w.bytes = true) :
    performAccess (.memRead addr w) f s =
      some ({ f with
          issued := f.issued + 1
          data := f.data |||
            (assembleLE (f.earlierByte s.mem (Config.raceVersion s.draws)) addr w.bytes <<< (8 * f.issued)) },
        { s with draws := s.draws + 1 }) := by
  simp only [performAccess, hadmits, hraced, if_true]

/-- With one replaced byte remembered, a byte from before some of the host writes is the remembered one or the memory's. -/
theorem earlierByte_of_singleton {f : Flight} {m m' : Memory} {x : Word} (h : f.old = [cellsAt m x 1]) (n : Nat) :
    f.earlierByte m' n x = readByte m x ∨ f.earlierByte m' n x = readByte m' x := by
  cases n with
  | zero => exact .inr (by simp [Flight.earlierByte, findKey])
  | succ n => exact .inl (by simp [Flight.earlierByte, h, cellsAt, findKey])

theorem exec_of_completed {i : Instr} {s s' : State} {f' : Flight} {p : Plan} (hplan : planOf i s.operands = .ok p)
    (hrun : runAccesses (p.accesses.drop (s.flightOf i).issued) (s.flightOf i) s = (f', s', true)) :
    exec i s = .next (s'.complete p.result f'.data) := by
  simp only [exec_eq_runCommand, runCommand, flightOf_ops, hplan, hrun]

theorem assembleLE_one (g : Word → Byte) (a : Word) : assembleLE g a 1 = (g a).setWidth 32 := by
  simp [assembleLE]

/-- The first access of a command, the read of a byte that one host write replaced, returns the byte from before that write or
the byte in memory. -/
theorem runAccesses_of_raced_byte {f : Flight} {s : State} {m : Memory} {addr : Word} (hissued : f.issued = 0)
    (hdata : f.data = 0) (hold : f.old = [cellsAt m addr 1]) (hadmits : s.admits .read .b1 addr = true) :
    ∃ f' s', runAccesses ([.memRead addr .b1] : List Access) f s = (f', s', true) ∧ s'.mem = s.mem ∧
      (f'.data = (readByte m addr).setWidth 32 ∨ f'.data = (readByte s.mem addr).setWidth 32) := by
  have hraced : f.raced addr Width.b1.bytes = true := by
    simp [Flight.raced, hold, cellsAt, Width.bytes, covers_self]
  simp only [runAccesses, performAccess_of_raced hadmits hraced, Width.bytes, assembleLE_one, hissued, hdata]
  refine ⟨_, _, rfl, rfl, ?_⟩
  obtain heither | heither := earlierByte_of_singleton hold (m' := s.mem) (Config.raceVersion s.draws)
  · exact .inl (by simp [heither])
  · exact .inr (by simp [heither])

/-- Settles O43: the read access sees the memory after the host's write or the byte that the flight remembers. -/
theorem racedGetpixReturnsEitherByte : Obligations.RacedGetpixReturnsEitherByte := by
  unfold Obligations.RacedGetpixReturnsEitherByte
  intro s t f h hwf hbusy hcmd hstart hok hadmits ht
  have hplan := planGetpix_of_pixelOk hok
  generalize pixelAddr f.ops .c8 = addr at *
  obtain ⟨hissued, hdata, hnone⟩ := flight_atStart hbusy hstart
  have hacc : f.accesses = [.memRead addr .b1] := Flight.Runs.accesses_eq ⟨hcmd ▸ decode_encode .getpix, hplan⟩
  have hrace : f.readRace addr Width.b1.bytes = true := by
    simp [Flight.readRace, Width.bytes, hacc, readCovering, covers_self]
  obtain rfl : s.hostFbWrite addr .b1 h = t := Host.Outcome.next.inj ht
  rw [hostFbWrite_of_readRace hbusy hrace, hnone]
  obtain ⟨f', s', hrun, hmem, hdata'⟩ := runAccesses_of_raced_byte (f := { f with old := [cellsAt s.mem addr 1] })
    (s := { s with mem := writeBytes s.mem addr 1 h, engine := .busy { f with old := [cellsAt s.mem addr 1] } })
    hissued hdata rfl hadmits
  have hfirst : [Access.memRead addr .b1].drop f.issued = [.memRead addr .b1] := by rw [hissued]; rfl
  have hbyte : readByte (writeBytes s.mem addr 1 h) addr = h.extractLsb' 0 8 := by
    simp [readByte_writeBytes _ _ _ _ _ hwf]
  refine ⟨s'.complete .container f'.data,
    exec_of_completed (p := ⟨[.memRead addr .b1], .container⟩) hplan ((congrArg (runAccesses · _ _) hfirst).trans hrun),
    complete_engine _ _ _, (complete_mem _ _ _).trans hmem, ?_⟩
  rw [← hbyte]
  exact hdata'

end Sys2Proof.Machine

/-! # The command word, the register accesses and the lines of a host program (30_encoding.md R80 to R87) -/

namespace Sys2Proof.Machine

/-! ## The opcode map and the command word (R81, R83, R84, R85) -/

/-- The opcode map read both ways: an opcode names one command, and that command has no other opcode (R83). -/
theorem decodeOpcode_eq_some_iff (op : BitVec 8) (i : Instr) : decodeOpcode op = some i ↔ op = opcode i := by
  constructor
  · intro h
    unfold decodeOpcode at h
    split at h <;> cases h <;> exact BitVec.eq_of_toNat_eq ‹_›
  · rintro rfl
    cases i <;> rfl

theorem reservedField_encode (i : Instr) : reservedField (encode i) = 0 := by cases i <;> rfl

/-- The two fields of a command word are the whole word (R81). -/
theorem word_eq_of_fields {w w' : Word} (hrsv : reservedField w = reservedField w') (hop : opcodeByte w = opcodeByte w') :
    w = w' := by
  rw [← BitVec.extractLsb'_append_extractLsb' (w := 24) (len := 8) (x := w),
    ← BitVec.extractLsb'_append_extractLsb' (w := 24) (len := 8) (x := w')]
  exact congrArg₂ (· ++ ·) hrsv hop

theorem eq_encode_iff (w : Word) (i : Instr) : w = encode i ↔ reservedField w = 0 ∧ opcodeByte w = opcode i := by
  constructor
  · rintro rfl
    exact ⟨reservedField_encode i, opcodeByte_encode i⟩
  · rintro ⟨hrsv, hop⟩
    exact word_eq_of_fields (hrsv.trans (reservedField_encode i).symm) (hop.trans (opcodeByte_encode i).symm)

/-- What the decoder looks at: the reserved field, and the opcode map at the opcode byte (R85). -/
theorem decode_eq_ok_iff (w : Word) (i : Instr) :
    decode w = .ok i ↔ reservedField w = 0 ∧ decodeOpcode (opcodeByte w) = some i := by
  unfold decode
  by_cases hrsv : reservedField w = 0
  · rw [if_pos hrsv]
    cases decodeOpcode (opcodeByte w) <;> simp [hrsv]
  · rw [if_neg hrsv]
    exact iff_of_false nofun fun ⟨hzero, _⟩ => hrsv hzero

/-- Settles O1: the decoder's two tests are the two fields of the command's word. -/
theorem decodeExactlyCommandWords : Obligations.DecodeExactlyCommandWords := by
  unfold Obligations.DecodeExactlyCommandWords
  intro w i
  rw [decode_eq_ok_iff, decodeOpcode_eq_some_iff, eq_encode_iff]

/-- Settles O2: each of the words is the encoding of its command. -/
theorem familyWordsDecode : Obligations.FamilyWordsDecode := by
  unfold Obligations.FamilyWordsDecode
  exact ⟨decode_encode .encRep, decode_encode .encCol, decode_encode .encPal, decode_encode .extract,
    decode_encode .setpixRep, decode_encode .setpixCol, decode_encode .setpixPal, decode_encode .putraw,
    decode_encode .getpix, decode_encode .grabpix, decode_encode .cwrite, decode_encode .cread,
    decode_encode .palBuild, decode_encode .palWrite, decode_encode .palRead⟩

/-! ## Illegal command words (R84) -/

/-- The illegal command words as R84 lists them. -/
def IllegalWord (w : Word) : Prop :=
  w.extractLsb' 8 24 ≠ 0 ∨
    (w.toNat % 256 = 0x00 ∨ 0x05 ≤ w.toNat % 256 ∧ w.toNat % 256 ≤ 0x0F ∨
      0x16 ≤ w.toNat % 256 ∧ w.toNat % 256 ≤ 0x1F ∨ 0x22 ≤ w.toNat % 256 ∧ w.toNat % 256 ≤ 0x2F ∨
      0x33 ≤ w.toNat % 256)

theorem not_illegalWord_encode (i : Instr) : ¬ IllegalWord (encode i) := by
  unfold IllegalWord
  cases i <;> decide

/-- A word that decodes is a command's word, and R84 lists none of those. -/
theorem decode_of_illegalWord {w : Word} (h : IllegalWord w) : ∃ e, decode w = .error e := by
  cases hd : decode w with
  | error e => exact ⟨e, rfl⟩
  | ok i =>
    obtain rfl := (decodeExactlyCommandWords w i).1 hd
    exact absurd h (not_illegalWord_encode i)

theorem engineTurn_of_illegal {s : State} {f : Flight} {e : DecodeError} (hbusy : s.engine = .busy f)
    (he : decode f.cmd = .error e) : engineTurn s = .next (s.raiseFault .illegal (opcodeByte f.cmd)) := by
  simp only [engineTurn, hbusy, he]

theorem raiseFault_eq_faultState (s : State) (c : FaultCode) (op : BitVec 8) :
    s.raiseFault c op = faultState s c.number op := rfl

theorem opcodeByte_eq_ofNat (w : Word) : opcodeByte w = BitVec.ofNat 8 w.toNat := by
  apply BitVec.eq_of_toNat_eq
  rw [opcodeByte, BitVec.extractLsb'_toNat, BitVec.toNat_ofNat, Nat.shiftRight_zero]

/-- Settles O3: an illegal word does not decode, so the engine's turn is the fault entry with code 1 and the word's low byte. -/
theorem illegalWordFaults : Obligations.IllegalWordFaults := by
  unfold Obligations.IllegalWordFaults
  intro s f hm hbusy hillegal
  obtain ⟨e, he⟩ := decode_of_illegalWord (w := f.cmd) hillegal
  rw [step_of_engineMoves hm, engineTurn_of_illegal hbusy he, raiseFault_eq_faultState, opcodeByte_eq_ofNat]
  rfl

/-! ## The step of a command that decodes (R81, R83; log 1, log 15) -/

/-- Settles O4: the engine's turn on a word that decodes is that command's meaning. -/
theorem stepRunsDecodedCommand : Obligations.StepRunsDecodedCommand := by
  unfold Obligations.StepRunsDecodedCommand
  intro s f i hm hbusy hi
  rw [step_of_engineMoves hm, engineTurn_of_decode hbusy hi]

theorem decodeTableWord_eq_some_iff (nbits w : Nat) (i : Instr) :
    decodeTableWord nbits w = some i ↔ decode (tableWord nbits w) = .ok i := by
  unfold decodeTableWord
  cases decode (tableWord nbits w) <;> simp

/-- Settles O5: the placed word is in flight, with an empty agenda. -/
theorem stepRunsFetchWord : Obligations.StepRunsFetchWord := by
  unfold Obligations.StepRunsFetchWord
  intro s nbits w i hi
  have hword : decode (Flight.start (tableWord nbits w) s.rw).cmd = .ok i := (decodeTableWord_eq_some_iff nbits w i).1 hi
  exact step_of_running (withCommand_agenda s _) (withCommand_engine s _) hword

/-! ## Which register accesses are in the interface (R80; log 10, log 11) -/

theorem registerAccessInside_iff (off size : Nat) :
    registerAccessInside off size = true ↔ size = 4 ∧ off % 4 = 0 ∧ off < 0x100 := by
  simp only [registerAccessInside, Bool.and_eq_true, decide_eq_true_eq, and_assoc]

theorem registerAccessRefusal_of_outside {off size : Nat} (h : ¬ registerAccessInside off size = true) :
    ∃ r, registerAccessRefusal off size = some r :=
  Option.ne_none_iff_exists'.1 (mt (registerAccessRefusal_none off size).1 h)

/-- An access has a meaning when it is inside the interface, and is refused when it is outside. -/
def AnswersInside (o : Host.Outcome State Fault Refusal) (inside : Prop) : Prop :=
  inside ∧ (∃ t, o = .next t) ∨ ¬ inside ∧ ∃ r, o = .refused r

theorem AnswersInside.next_iff {o : Host.Outcome State Fault Refusal} {inside : Prop} (h : AnswersInside o inside) :
    (∃ t, o = .next t) ↔ inside := by
  obtain ⟨hin, hnext⟩ | ⟨hout, r, rfl⟩ := h
  · exact iff_of_true hnext hin
  · exact iff_of_false nofun hout

theorem AnswersInside.refused {o : Host.Outcome State Fault Refusal} {inside : Prop} (h : AnswersInside o inside)
    (hout : ¬ inside) : ∃ r, o = .refused r := by
  obtain ⟨hin, -⟩ | ⟨-, hrefused⟩ := h
  · exact absurd hin hout
  · exact hrefused

theorem answersInside_of_refusal {o : Host.Outcome State Fault Refusal} {off size : Nat}
    (hnext : registerAccessInside off size = true → ∃ t, o = .next t)
    (hrefused : ∀ r, registerAccessRefusal off size = some r → o = .refused r) :
    AnswersInside o (size = 4 ∧ off % 4 = 0 ∧ off < 0x100) := by
  rw [← registerAccessInside_iff]
  by_cases hin : registerAccessInside off size = true
  · exact .inl ⟨hin, hnext hin⟩
  · obtain ⟨r, hr⟩ := registerAccessRefusal_of_outside hin
    exact .inr ⟨hin, r, hrefused r hr⟩

theorem regWrite_answersInside (s : State) (off size : Nat) (v : Word) :
    AnswersInside (hostEvent (.regWrite off size v) s) (size = 4 ∧ off % 4 = 0 ∧ off < 0x100) := by
  refine answersInside_of_refusal (fun hin => ?_) fun r hr => by simp only [hostEvent, State.hostRegWrite, hr]
  obtain ⟨rfl, -⟩ := (registerAccessInside_iff off size).1 hin
  exact ⟨_, hostRegWrite_of_inside s v hin⟩

theorem regRead_answersInside (s : State) (off size : Nat) :
    AnswersInside (hostEvent (.regRead off size) s) (size = 4 ∧ off % 4 = 0 ∧ off < 0x100) := by
  refine answersInside_of_refusal (fun hin => ?_) fun r hr => by simp only [hostEvent, State.hostRegRead, hr]
  obtain ⟨rfl, -⟩ := (registerAccessInside_iff off size).1 hin
  exact ⟨_, hostRegRead_of_inside s hin⟩

/-- Settles O46: a write and a read each answer inside the interface and are refused outside it. -/
theorem narrowRegisterAccessRefused : Obligations.NarrowRegisterAccessRefused := by
  unfold Obligations.NarrowRegisterAccessRefused
  intro s off size v
  have hwrite := regWrite_answersInside s off size v
  have hread := regRead_answersInside s off size
  exact ⟨hwrite.next_iff, hread.next_iff, fun hout => ⟨hwrite.refused hout, hread.refused hout⟩⟩

/-! ## A write of `CMD` (R81, R82, R206) -/

theorem writeCommand_of_err {s : State} (herr : s.status.err = true) (w : Word) : s.writeCommand w = s := by
  rw [State.writeCommand, if_pos herr]

/-- The accepted command is at its start, in a state that is otherwise as before. -/
theorem writeCommand_of_ready {s : State} (herr : s.status.err = false) (hidle : s.busy = false) (w : Word) :
    s.writeCommand w = s.withFlight (Flight.start w s.rw) := by
  simp [State.writeCommand, herr, hidle, State.withFlight]

theorem commandIs_withFlight_start (s : State) (o : OperandRegs) (i : Instr) :
    (s.withFlight (Flight.start (encode i) o)).commandIs i = true := decide_eq_true rfl

/-- Settles O51: ERR comes first, then BUSY, and else a flight starts on the registers as they stand. -/
theorem commandWriteStartsCommand : Obligations.CommandWriteStartsCommand := by
  unfold Obligations.CommandWriteStartsCommand
  intro s w
  refine ⟨fun herr => ?ignored, fun herr hbusy => ?dropped, fun herr hidle => ?accepted⟩
  case ignored => rw [hostWrites_eq, writeRegister_cmd, writeCommand_of_err herr]
  case dropped =>
    obtain ⟨hcmd, -⟩ := busyWriteDroppedSetsOvr s w hbusy herr
    exact hcmd
  case accepted =>
    refine ⟨s.withFlight (Flight.start w s.rw), ?_, rfl, rfl, rfl, rfl, ?_⟩
    · rw [hostWrites_eq, writeRegister_cmd, writeCommand_of_ready herr hidle]
    · rintro i rfl
      exact commandIs_withFlight_start s s.rw i

/-! ## POLL (R87; log 1) -/

/-- Bit 0 of `STATUS` is BUSY (R24). -/
theorem statusWord_getLsbD_zero (s : State) : s.statusWord.getLsbD 0 = s.busy := by
  have hbusy : s.busy.toNat ≤ 1 := Bool.toNat_le s.busy
  rw [← BitVec.testBit_toNat, Nat.testBit_zero, statusWord_toNat, Bool.eq_iff_iff, decide_eq_true_iff, ← Bool.toNat_eq_one]
  omega

/-- Settles O54: at a POLL the engine moves exactly while BUSY = 1, and the POLL that ends reads `STATUS`. -/
theorem pollWaitsForEngine : Obligations.PollWaitsForEngine := by
  unfold Obligations.PollWaitsForEngine
  intro s rest ha
  constructor
  · intro hbusy
    exact step_of_engineMoves ((engineMoves_iff_of_agenda_cons ha).2 ⟨rfl, hbusy⟩)
  · intro hidle
    have hhost : ¬ s.engineMoves = true := by simp [engineMoves_iff_of_agenda_cons ha, hidle]
    have hread := readRegister_of_no_hazard { s with agenda := rest } (r := .status) (.inr rfl)
    refine ⟨_, (step_of_hostMoves ha hhost).trans (congrArg Host.Outcome.next hread), rfl, ?_⟩
    exact (statusWord_getLsbD_zero s).trans hidle

/-! ## A line of a host program that is one write of a register (R86, R87) -/

/-- A line that is one write of an RW register stores the written value's unreserved bits there. -/
theorem lineRuns_of_write {l : HostLine} {r : RegName} {v : Word} (hl : expandLine l = [writeOf r v])
    (hrw : r ∉ [RegName.status, .cmd, .resultRaw, .resultRgb]) {s : State} (hidle : s.busy = false) :
    lineRuns l s { s with rw := s.rw.store r (v &&& storedBits r) } := by
  refine ⟨_, hl, (hostWrites_eq s r v).trans ?_⟩
  rw [writeRegister_of_rw hrw, hidle]
  rfl

/-! ## A field of the stored word -/

/-- A field that the register stores whole holds its bits of the written number. -/
theorem extractLsb'_stored_toNat {m : Word} {k len : Nat} (hm : m.extractLsb' k len = BitVec.allOnes len) (n : Nat) :
    ((BitVec.ofNat 32 n &&& m).extractLsb' k len).toNat = n % 2 ^ 32 / 2 ^ k % 2 ^ len := by
  rw [BitVec.extractLsb'_and, hm, BitVec.and_allOnes, BitVec.extractLsb'_toNat, BitVec.toNat_ofNat, Nat.shiftRight_eq_div_pow]

/-- A bit that the register stores is that bit of the written number. -/
theorem getLsbD_stored {m : Word} {k : Nat} (hm : m.getLsbD k = true) (n : Nat) :
    (BitVec.ofNat 32 n &&& m).getLsbD k = decide (n % 2 ^ 32 / 2 ^ k % 2 = 1) := by
  rw [BitVec.getLsbD_and, hm, Bool.and_true, ← BitVec.testBit_toNat, BitVec.toNat_ofNat, Nat.testBit_eq_decide_div_mod_eq]

/-- Two numbers packed by a shift and an OR, as a sum. -/
theorem shiftLeft_or_eq_add {x k : Nat} (hx : x < 2 ^ k) (y : Nat) : (y <<< k) ||| x = y * 2 ^ k + x := by
  rw [← Nat.shiftLeft_add_eq_or_of_lt hx, Nat.shiftLeft_eq]

/-- The two 16-bit fields of `XY`, `VIS_SIZE` and `VIRT_SIZE` (R31, R34). -/
theorem halves_stored {x y : Nat} (hx : x < 2 ^ 16) (hy : y < 2 ^ 16) :
    ((BitVec.ofNat 32 ((y <<< 16) ||| x) &&& 0xFFFFFFFF).extractLsb' 0 16).toNat = x ∧
      ((BitVec.ofNat 32 ((y <<< 16) ||| x) &&& 0xFFFFFFFF).extractLsb' 16 16).toNat = y := by
  rw [shiftLeft_or_eq_add hx, extractLsb'_stored_toNat (by decide), extractLsb'_stored_toNat (by decide)]
  omega

/-- The three ChannelField registers are alike (R32). -/
theorem channelOf_store_fieldReg (o : OperandRegs) (c : Channel) (w : Word) :
    channelOf (o.store (fieldReg c) w) c = channelField w := by
  cases c <;> rfl

/-- The three fields of a ChannelField register, as `FIELD` packs them (R32, R87). -/
theorem channelField_stored {off len msb : Nat} (hoff : off < 32) (hlen : len < 16) (hmsb : msb < 2) :
    channelField (BitVec.ofNat 32 (off ||| (len <<< 8) ||| (msb <<< 16)) &&& 0x00010F1F) =
      ⟨BitVec.ofNat 5 off, BitVec.ofNat 4 len, decide (msb = 1)⟩ := by
  have hpacked : off ||| (len <<< 8) ||| (msb <<< 16) = msb * 2 ^ 16 + (len * 2 ^ 8 + off) := by
    have hoff8 : off < 2 ^ 8 := by omega
    have hlow : len * 2 ^ 8 + off < 2 ^ 16 := by omega
    rw [Nat.or_comm, Nat.or_comm off, shiftLeft_or_eq_add hoff8, shiftLeft_or_eq_add hlow]
  rw [hpacked, channelField, ChannelField.mk.injEq]
  refine ⟨BitVec.eq_of_toNat_eq ?_, BitVec.eq_of_toNat_eq ?_, ?_⟩
  · rw [extractLsb'_stored_toNat (by decide), BitVec.toNat_ofNat]
    omega
  · rw [extractLsb'_stored_toNat (by decide), BitVec.toNat_ofNat]
    omega
  · rw [getLsbD_stored (by decide), decide_eq_decide]
    omega

/-! ## The fields that each pseudo-instruction sets (R87) -/

section PseudoInstructions

variable {s : State} (hidle : s.busy = false)
include hidle

theorem setXY_sets {x y : Nat} (h : HostLine.wellFormed (.setXY x y) = true) :
    ∃ t, lineRuns (.setXY x y) s t ∧ t.rw.x = x ∧ t.rw.y = y := by
  obtain ⟨hx, hy⟩ : x < 2 ^ 16 ∧ y < 2 ^ 16 := by simpa [HostLine.wellFormed] using h
  exact ⟨_, lineRuns_of_write (r := .xy) rfl (by decide) hidle, halves_stored hx hy⟩

theorem size_visible_sets {w h : Nat} (hwf : HostLine.wellFormed (.size .visible w h) = true) :
    ∃ t, lineRuns (.size .visible w h) s t ∧ t.rw.visW = w ∧ t.rw.visH = h := by
  obtain ⟨hw, hh⟩ : w < 2 ^ 16 ∧ h < 2 ^ 16 := by simpa [HostLine.wellFormed] using hwf
  exact ⟨_, lineRuns_of_write (r := .visSize) rfl (by decide) hidle, halves_stored hw hh⟩

theorem size_virtual_sets {w h : Nat} (hwf : HostLine.wellFormed (.size .virtual w h) = true) :
    ∃ t, lineRuns (.size .virtual w h) s t ∧ t.rw.virtW = w ∧ t.rw.virtH = h := by
  obtain ⟨hw, hh⟩ : w < 2 ^ 16 ∧ h < 2 ^ 16 := by simpa [HostLine.wellFormed] using hwf
  exact ⟨_, lineRuns_of_write (r := .virtSize) rfl (by decide) hidle, halves_stored hw hh⟩

theorem setRGB_sets {r g b : Nat} (h : HostLine.wellFormed (.setRGB r g b) = true) :
    ∃ t, lineRuns (.setRGB r g b) s t ∧ t.rw.colorR.toNat = r ∧ t.rw.colorG.toNat = g ∧ t.rw.colorB.toNat = b := by
  obtain ⟨⟨hr, hg⟩, hb⟩ : (r < 2 ^ 8 ∧ g < 2 ^ 8) ∧ b < 2 ^ 8 := by simpa [HostLine.wellFormed] using h
  have hpacked : (r <<< 16) ||| (g <<< 8) ||| b = r * 2 ^ 16 + g * 2 ^ 8 + b := by
    have hgb : g * 2 ^ 8 + b < 2 ^ 16 := by omega
    rw [Nat.or_assoc, shiftLeft_or_eq_add hb, shiftLeft_or_eq_add hgb, Nat.add_assoc]
  refine ⟨_, lineRuns_of_write (r := .color) rfl (by decide) hidle, ?_⟩
  simp only [OperandRegs.store, OperandRegs.colorR, OperandRegs.colorG, OperandRegs.colorB, hpacked]
  rw [extractLsb'_stored_toNat (by decide), extractLsb'_stored_toNat (by decide), extractLsb'_stored_toNat (by decide)]
  omega

theorem setIdx_sets {i : Nat} (h : HostLine.wellFormed (.setIdx i) = true) :
    ∃ t, lineRuns (.setIdx i) s t ∧ t.rw.colorIdx.toNat = i := by
  have hi : i < 256 := of_decide_eq_true h
  refine ⟨_, lineRuns_of_write (r := .color) rfl (by decide) hidle, ?_⟩
  simp only [OperandRegs.store, OperandRegs.colorIdx]
  rw [extractLsb'_stored_toNat (by decide)]
  omega

theorem format_sets {bpp indexed : Nat} (h : HostLine.wellFormed (.format bpp indexed) = true) :
    ∃ t, lineRuns (.format bpp indexed) s t ∧ t.rw.bpp.toNat = bpp ∧ t.rw.indexed = decide (indexed = 1) := by
  obtain ⟨hbpp, hindexed⟩ : bpp < 64 ∧ indexed < 2 := by simpa [HostLine.wellFormed] using h
  have hpacked : bpp ||| (indexed <<< 8) = indexed * 2 ^ 8 + bpp := by
    have hlow : bpp < 2 ^ 8 := by omega
    rw [Nat.or_comm, shiftLeft_or_eq_add hlow]
  refine ⟨_, lineRuns_of_write (r := .fmt) rfl (by decide) hidle, ?_⟩
  simp only [OperandRegs.store, OperandRegs.bpp, OperandRegs.indexed, hpacked]
  rw [extractLsb'_stored_toNat (by decide), getLsbD_stored (by decide), decide_eq_decide]
  omega

theorem field_sets {c : Channel} {off len msb : Nat} (h : HostLine.wellFormed (.field c off len msb) = true) :
    ∃ t, lineRuns (.field c off len msb) s t ∧
      channelOf t.rw c = ⟨BitVec.ofNat 5 off, BitVec.ofNat 4 len, decide (msb = 1)⟩ := by
  obtain ⟨⟨hoff, hlen⟩, hmsb⟩ : (off < 32 ∧ len < 16) ∧ msb < 2 := by simpa [HostLine.wellFormed] using h
  have hrw : fieldReg c ∉ [RegName.status, .cmd, .resultRaw, .resultRgb] := by cases c <;> decide
  have hbits : storedBits (fieldReg c) = 0x00010F1F := by cases c <;> rfl
  exact ⟨_, lineRuns_of_write rfl hrw hidle,
    (channelOf_store_fieldReg s.rw c _).trans (hbits ▸ channelField_stored hoff hlen hmsb)⟩

end PseudoInstructions

/-- Settles O55: each line is one write of an RW register, and the register's fields cut the packed number where its line
put the operands. -/
theorem notationSetsFields : Obligations.NotationSetsFields := by
  unfold Obligations.NotationSetsFields
  intro s hidle
  exact ⟨fun _ _ => setXY_sets hidle, fun _ _ _ => setRGB_sets hidle, fun _ => setIdx_sets hidle,
    fun _ _ _ _ => field_sets hidle, fun _ _ => size_visible_sets hidle, fun _ _ => size_virtual_sets hidle,
    fun _ _ => format_sets hidle, fun _ => rfl⟩

end Sys2Proof.Machine

/-! # The pure codec commands (40_codec.md R100 to R109) -/

namespace Sys2Proof.Machine

/-! ## The replication code, bit by bit (R101) -/

/-- A number kept to 32 bits has the number's own bits below 32. -/
theorem getLsbD_ofNat_iff (n j : Nat) : (BitVec.ofNat 32 n).getLsbD j = true ↔ j < 32 ∧ n.testBit j = true := by
  rw [BitVec.getLsbD_ofNat, Bool.and_eq_true, decide_eq_true_iff]

/-- The code of an intensity `1 ≤ v ≤ L`: one bit. -/
theorem testBit_single_iff (k off j : Nat) : ((1 <<< k) <<< off).testBit j = true ↔ j = off + k := by
  rw [← Nat.shiftLeft_add, Nat.one_shiftLeft, Nat.testBit_two_pow, decide_eq_true_iff, Nat.add_comm, eq_comm]

/-- The code of an intensity `v > L`: every bit of the field. -/
theorem testBit_mask_iff (len off j : Nat) : (mask len <<< off).testBit j = true ↔ off ≤ j ∧ j < off + len := by
  rw [mask, Nat.testBit_shiftLeft, Nat.testBit_two_pow_sub_one, Bool.and_eq_true, decide_eq_true_iff, decide_eq_true_iff]
  omega

theorem chanRep_getLsbD (v : Byte) (f : ChannelField) (j : Nat) :
    (chanRep v f).getLsbD j = true ↔ j < 32 ∧ replicationBit v f j := by
  unfold chanRep replicationBit
  by_cases hzero : v.toNat = 0
  · simp [hzero]
  · rw [if_neg hzero, and_iff_right hzero]
    split
    · rw [getLsbD_ofNat_iff, testBit_single_iff]
    · rw [getLsbD_ofNat_iff, testBit_mask_iff]

/-- Settles O7: zero has no bit, and either other code is a shifted number whose bits are known. -/
theorem replicationCodeBits : Obligations.ReplicationCodeBits := by
  unfold Obligations.ReplicationCodeBits
  exact chanRep_getLsbD

/-! ## The clamped code (R102) -/

theorem chanCol_toNat_eq_mod (v : Byte) (f : ChannelField) :
    (chanCol v f).toNat = min v.toNat (2 ^ f.len.toNat - 1) * 2 ^ f.off.toNat % 2 ^ 32 := by
  rw [chanCol, mask, Nat.shiftLeft_eq, BitVec.toNat_ofNat]

/-- A field of 8 bits or more clamps no intensity. -/
theorem min_fieldMax_of_eight_le (v : Byte) {len : Nat} (hlen : 8 ≤ len) : min v.toNat (2 ^ len - 1) = v.toNat := by
  have hpow : 2 ^ 8 ≤ 2 ^ len := Nat.pow_le_pow_right (by omega) hlen
  omega

/-- Settles O8: the formula, whose minimum is the intensity itself in a field of 8 bits or more. -/
theorem clampedCodeValue : Obligations.ClampedCodeValue := by
  unfold Obligations.ClampedCodeValue
  refine ⟨chanCol_toNat_eq_mod, fun v f hlen => ?_⟩
  rw [chanCol_toNat_eq_mod, min_fieldMax_of_eight_le v hlen]

/-! ## Extraction and normalizing (R103, R104) -/

/-- Settles O9: extraction is a quotient and a remainder, and an intensity that the field can hold is not clamped. -/
theorem extractInvertsClampedCode : Obligations.ExtractInvertsClampedCode := by
  unfold Obligations.ExtractInvertsClampedCode
  refine ⟨extractField_eq, fun v f _ hfits hmax => ?_⟩
  have hv : f.InRange v := Nat.lt_of_le_pred (by positivity) hmax
  exact extractField_chanCol_same hfits hv

theorem normalizeChannel_toNat_eq_intensity (raw : Word) {f : ChannelField} (hlen : f.len.toNat ≤ 8) :
    (normalizeChannel raw f).toNat = channelIntensity raw f := by
  rw [normalizeChannel_toNat raw f hlen, extractField_eq, channelIntensity]

/-- Settles O10: the normalized channel is a multiple of the power of two that left-justifies it. -/
theorem normalizeLeftJustifies : Obligations.NormalizeLeftJustifies := by
  unfold Obligations.NormalizeLeftJustifies
  intro raw f hlen
  refine ⟨normalizeChannel_toNat_eq_intensity raw hlen, ?_⟩
  rw [normalizeChannel_toNat raw f hlen, Nat.mul_mod_left]

/-! ## The values that the commands write (R100, R108, R109) -/

theorem encodeRep_getLsbD (o : OperandRegs) (j : Nat) :
    (encodeRep o).getLsbD j = true ↔ j < 32 ∧
      (replicationBit o.colorR o.redField j ∨ replicationBit o.colorG o.greenField j ∨
        replicationBit o.colorB o.blueField j) := by
  simp only [encodeRep, encodeBy, BitVec.getLsbD_or, Bool.or_eq_true, chanRep_getLsbD, ← and_or_left, or_assoc]

/-- Keeping 32 bits of each code keeps 32 bits of their OR. -/
theorem encodeCol_toNat (o : OperandRegs) :
    (encodeCol o).toNat =
      (min o.colorR.toNat (2 ^ o.redField.len.toNat - 1) * 2 ^ o.redField.off.toNat |||
        min o.colorG.toNat (2 ^ o.greenField.len.toNat - 1) * 2 ^ o.greenField.off.toNat |||
        min o.colorB.toNat (2 ^ o.blueField.len.toNat - 1) * 2 ^ o.blueField.off.toNat) % 2 ^ 32 := by
  simp only [encodeCol, encodeBy, BitVec.toNat_or, chanCol_toNat_eq_mod, Nat.or_mod_two_pow]

theorem encodePal_eq (o : OperandRegs) : encodePal o = BitVec.ofNat 32 (o.color.toNat % 256) := by
  apply BitVec.eq_of_toNat_eq
  rw [encodePal, OperandRegs.colorIdx, BitVec.toNat_setWidth, BitVec.extractLsb'_toNat, BitVec.toNat_ofNat, Nat.shiftRight_zero]

theorem packRgb_normalizeChannel {o : OperandRegs} (h : o.extractOk = true) (raw : Word) :
    packRgb (normalizeChannel raw o.redField) (normalizeChannel raw o.greenField) (normalizeChannel raw o.blueField) =
      rgbWord (channelIntensity raw o.redField) (channelIntensity raw o.greenField) (channelIntensity raw o.blueField) := by
  have hchannel (c : Channel) : (normalizeChannel raw (channelOf o c)).toNat = channelIntensity raw (channelOf o c) :=
    normalizeChannel_toNat_eq_intensity raw (extractOk_len h c)
  rw [packRgb_eq_rgbWord]
  exact congr (congrArg₂ rgbWord (hchannel .red) (hchannel .green)) (hchannel .blue)

/-! ## The commands (R106 to R109) -/

theorem exec_encRep (s : State) :
    exec .encRep s = .next { s with resultRaw := encodeRep s.operands, engine := .idle } :=
  exec_of_no_accesses (r := .raw (encodeRep s.operands)) rfl

/-- The format of 8 bits per pixel passes with the 8-bit container, indexed or not (R63, R130). -/
theorem formatOk_c8 {o : OperandRegs} (h : o.bpp.toNat = 8) : o.formatOk .c8 = true := by
  simp [OperandRegs.formatOk, containerOf, h]

theorem planEncPal_of_bpp_eight {o : OperandRegs} (h : o.bpp.toNat = 8) :
    planEncPal o = .ok { accesses := [], result := .raw (encodePal o) } :=
  (bind_ok _ _ _).2 ⟨.c8, (checkFormat_ok o .c8).2 (formatOk_c8 h), rfl⟩

theorem exec_encPal {s : State} (h : s.operands.bpp.toNat = 8) :
    exec .encPal s = .next { s with resultRaw := encodePal s.operands, engine := .idle } :=
  exec_of_no_accesses (i := .encPal) (planEncPal_of_bpp_eight h)

/-- Settles O11: the command has no check and no access, and a bit of an OR is a bit of one of the three codes. -/
theorem encRepWritesRawValue : Obligations.EncRepWritesRawValue := by
  unfold Obligations.EncRepWritesRawValue
  exact ⟨rfl, fun s => ⟨_, exec_encRep s, rfl, encodeRep_getLsbD s.operands⟩⟩

/-- Settles O12: the command has no check and no access, and its value is the OR of the clamped codes. -/
theorem encColWritesRawValue : Obligations.EncColWritesRawValue := by
  unfold Obligations.EncColWritesRawValue
  exact ⟨rfl, fun s => ⟨_, exec_encCol s, rfl, encodeCol_toNat s.operands⟩⟩

/-- Settles O13: at 8 bits per pixel both checks pass, and the index is the low byte of `COLOR`. -/
theorem encPalWritesIndex : Obligations.EncPalWritesIndex := by
  unfold Obligations.EncPalWritesIndex
  intro s hbpp
  rw [exec_encPal hbpp, encodePal_eq]

/-- Settles O14: legal fields pass the checks, and each normalized channel is its intensity. -/
theorem extractWritesIntensities : Obligations.ExtractWritesIntensities := by
  unfold Obligations.ExtractWritesIntensities
  intro s hok
  rw [exec_extract hok, packRgb_normalizeChannel hok]

end Sys2Proof.Machine

/-! # The surface commands: the container they store or read (41_surface.md R131 to R140) -/

namespace Sys2Proof.Machine

/-! ## The bytes of a container (R62, R64, R65) -/

theorem container_nbytes_le (c : Container) : c.nbytes ≤ 4 := by cases c <;> decide

theorem storesContainer_writeBytes {m : Memory} (hwf : m.wf = true) (c : Container) (addr raw : Word) :
    storesContainer m (writeBytes m addr c.nbytes raw) c addr raw := by
  have hlt : c.nbytes < 2 ^ 32 := (container_nbytes_le c).trans_lt (by decide)
  exact fun x => readByte_writeBytes m addr x c.nbytes raw hwf hlt

theorem isContainerValue_readBytes (m : Memory) (c : Container) (addr : Word) :
    isContainerValue m c addr (readBytes m addr c.nbytes) :=
  hasBytes_assembleLE (readByte m) addr (container_nbytes_le c)

/-- A byte of a container, read after the container was written, is that byte of the written value. -/
theorem readByte_writeBytes_add {m : Memory} (hwf : m.wf = true) (addr raw : Word) {k n : Nat} (hk : k < n) (hn : n ≤ 4) :
    readByte (writeBytes m addr n raw) (addr + BitVec.ofNat 32 k) = raw.extractLsb' (8 * k) 8 := by
  have hdistance : (addr + BitVec.ofNat 32 k - addr).toNat = k := by
    rw [BitVec.add_comm, BitVec.add_sub_cancel, BitVec.toNat_ofNat, Nat.mod_eq_of_lt (by omega)]
  rw [readByte_writeBytes _ _ _ _ _ hwf (by omega), hdistance, if_pos hk]

/-- Reading a container back gives the written value truncated to the container (R64, R65, R140). -/
theorem readBytes_writeBytes_toNat {m : Memory} (hwf : m.wf = true) (addr raw : Word) {n : Nat} (hn : n ≤ 4) :
    (readBytes (writeBytes m addr n raw) addr n).toNat = raw.toNat % 2 ^ (8 * n) := by
  refine Nat.eq_of_testBit_eq fun j => ?_
  rw [Nat.testBit_mod_two_pow, BitVec.testBit_toNat, BitVec.testBit_toNat, readBytes, assembleLE_getLsbD _ _ _ _ hn]
  by_cases hj : j < 8 * n
  · rw [readByte_writeBytes_add hwf addr raw (show j / 8 < n by omega) hn, BitVec.getLsbD_extractLsb',
      Nat.div_add_mod]
    simp [Nat.mod_lt]
  · simp [hj]

/-! ## What a command does whose accesses are one container's (R25, R74) -/

/-- A command at its start whose checks pass performs its plan's accesses from the first, and ends with its result. -/
theorem exec_of_plan {i : Instr} {s s' : State} {f' : Flight} {p : Plan} (hstart : s.atStart = true)
    (hplan : planOf i s.operands = .ok p) (hrun : runAccesses p.accesses (s.flightOf i) s = (f', s', true)) :
    exec i s = .next (s'.complete p.result f'.data) := by
  obtain ⟨hissued, -, -⟩ := flightOf_atStart s i hstart
  exact exec_of_completed hplan (by rw [hissued, List.drop_zero, hrun])

theorem exec_containerWrite {i : Instr} {s : State} {c : Container} {addr raw : Word} (hstart : s.atStart = true)
    (hplan : planOf i s.operands = .ok { accesses := containerWrite c addr raw, result := .nothing })
    (hadmits : s.admitsContainer .write c addr = true) :
    exec i s = .next { s with mem := writeBytes s.mem addr c.nbytes raw, engine := .idle } := by
  obtain ⟨f', -, hrun⟩ := runAccesses_containerWrite c addr raw (s.flightOf i) s
    ((admitsAll_containerWrite s c addr raw).trans hadmits)
  exact exec_of_plan hstart hplan hrun

theorem exec_containerRead {i : Instr} {s : State} {c : Container} {addr : Word} {r : Result} (hstart : s.atStart = true)
    (hplan : planOf i s.operands = .ok { accesses := containerRead c addr, result := r })
    (hadmits : s.admitsContainer .read c addr = true) :
    exec i s = .next (s.complete r (readBytes s.mem addr c.nbytes)) := by
  obtain ⟨hissued, hdata, hold⟩ := flightOf_atStart s i hstart
  obtain ⟨f', hvalue, hrun⟩ := runAccesses_containerRead c addr (s.flightOf i) s hissued hdata hold
    ((admitsAll_containerRead s c addr).trans hadmits)
  rw [exec_of_plan hstart hplan hrun, hvalue]

theorem storesAndCompletes_of_plan {i : Instr} {s : State} {c : Container} {addr raw : Word} (hwf : s.mem.wf = true)
    (hstart : s.atStart = true)
    (hplan : planOf i s.operands = .ok { accesses := containerWrite c addr raw, result := .nothing })
    (hadmits : s.admitsContainer .write c addr = true) : storesAndCompletes i s c addr raw :=
  ⟨_, exec_containerWrite hstart hplan hadmits, rfl, storesContainer_writeBytes hwf c addr raw⟩

/-- GETPIX and CREAD end alike: the container that was read goes to RESULT_RAW (R137, R140). -/
theorem readsAndCompletes_of_plan {i : Instr} {s : State} {c : Container} {addr : Word} (hstart : s.atStart = true)
    (hplan : planOf i s.operands = .ok { accesses := containerRead c addr, result := .container })
    (hadmits : s.admitsContainer .read c addr = true) :
    ∃ t : State, exec i s = .next t ∧ t = { s with resultRaw := t.resultRaw, engine := .idle } ∧
      isContainerValue s.mem c addr t.resultRaw :=
  ⟨_, exec_containerRead hstart hplan hadmits, rfl, isContainerValue_readBytes s.mem c addr⟩

/-! ## The plans of commands whose checks pass (R130 to R132) -/

theorem bind_of_ok {α β : Type} {x : Except FaultCode α} {a : α} (h : x = .ok a) (g : α → Except FaultCode β) :
    (x >>= g) = g a := by
  rw [h]
  rfl

/-- A pixel command with a check of its own between the format and the pixel: its rest runs at the pixel's address. -/
theorem guardedPixelPlan_of_pixelOk {o : OperandRegs} {c : Container} {guard : Container → Except FaultCode Unit}
    {rest : Container → Word → Except FaultCode Plan} (hok : o.pixelOk c = true) (hguard : guard c = .ok ()) :
    (checkFormat o >>= fun d => guard d >>= fun _ => pixelTarget o d >>= rest d) = rest c (pixelAddr o c) := by
  obtain ⟨hformat, htarget⟩ := (pixelTarget_ok o c (pixelAddr o c)).2 ⟨hok, rfl⟩
  rw [bind_of_ok ((checkFormat_ok o c).2 hformat), bind_of_ok hguard, bind_of_ok htarget]

/-- An offset command: its rest runs at the address of OFFSET. -/
theorem offsetPlan_of_offsetOk {o : OperandRegs} {c : Container} {rest : Container → Word → Except FaultCode Plan}
    (hok : o.offsetOk c = true) :
    (checkFormat o >>= fun d => offsetTarget o d >>= rest d) = rest c (offsetAddr o) := by
  obtain ⟨hformat, htarget⟩ := (offsetTarget_ok o c (offsetAddr o)).2 ⟨hok, rfl⟩
  rw [bind_of_ok ((checkFormat_ok o c).2 hformat), bind_of_ok htarget]

/-- The check of INDEXED = 0 that SETPIX_REP, SETPIX_COL and GRABPIX make, each with its own code (R133, R134, R138). -/
theorem failIf_indexed_ok {o : OperandRegs} (hdirect : o.indexed = false) (code : FaultCode) :
    failIf (o.indexed = true) code = .ok () := by
  rw [failIf_ok, hdirect]
  decide

theorem planSetpixRep_of_pixelOk {o : OperandRegs} {c : Container} (hok : o.pixelOk c = true) (hdirect : o.indexed = false) :
    planOf .setpixRep o = .ok { accesses := containerWrite c (pixelAddr o c) (encodeRep o), result := .nothing } :=
  guardedPixelPlan_of_pixelOk hok (failIf_indexed_ok hdirect .mode)

theorem planSetpixCol_of_pixelOk {o : OperandRegs} {c : Container} (hok : o.pixelOk c = true) (hdirect : o.indexed = false) :
    planOf .setpixCol o = .ok { accesses := containerWrite c (pixelAddr o c) (encodeCol o), result := .nothing } :=
  guardedPixelPlan_of_pixelOk hok (failIf_indexed_ok hdirect .mode)

theorem planSetpixPal_of_pixelOk {o : OperandRegs} (hok : o.pixelOk .c8 = true) :
    planOf .setpixPal o = .ok { accesses := containerWrite .c8 (pixelAddr o .c8) (encodePal o), result := .nothing } :=
  guardedPixelPlan_of_pixelOk (guard := fun d => failIf (d ≠ .c8) .palBpp) hok rfl

theorem planGrabpix_of_pixelOk {o : OperandRegs} {c : Container} (hok : o.pixelOk c = true) (hdirect : o.indexed = false)
    (hfields : o.extractOk = true) :
    planOf .grabpix o = .ok {
      accesses := containerRead c (pixelAddr o c)
      result := .capture o.redField o.greenField o.blueField } :=
  (guardedPixelPlan_of_pixelOk hok (failIf_indexed_ok hdirect .unimpl)).trans
    (bind_of_ok ((checkExtract_ok o).2 hfields) _)

theorem planCwrite_of_offsetOk {o : OperandRegs} {c : Container} (hok : o.offsetOk c = true) :
    planOf .cwrite o = .ok { accesses := containerWrite c (offsetAddr o) o.rawIn, result := .nothing } :=
  offsetPlan_of_offsetOk hok

theorem planCread_of_offsetOk {o : OperandRegs} {c : Container} (hok : o.offsetOk c = true) :
    planOf .cread o = .ok { accesses := containerRead c (offsetAddr o), result := .container } :=
  offsetPlan_of_offsetOk hok

/-! ## The commands that store (R133 to R136, R139) -/

/-- Settles O16: both commands write the pixel's container, each with its own code of the colour. -/
theorem setpixStoresEncodedColour : Obligations.SetpixStoresEncodedColour := by
  unfold Obligations.SetpixStoresEncodedColour
  intro s c hwf hstart hok hdirect hadmits
  exact ⟨storesAndCompletes_of_plan hwf hstart (planSetpixRep_of_pixelOk hok hdirect) hadmits,
    storesAndCompletes_of_plan hwf hstart (planSetpixCol_of_pixelOk hok hdirect) hadmits⟩

/-- Settles O17: the 8-bit container passes the check of its width, and the index is the low byte of `COLOR`. -/
theorem setpixPalStoresIndex : Obligations.SetpixPalStoresIndex := by
  unfold Obligations.SetpixPalStoresIndex
  intro s hwf hstart hok hadmits
  rw [← encodePal_eq]
  exact storesAndCompletes_of_plan hwf hstart (planSetpixPal_of_pixelOk hok) hadmits

/-- Settles O18: the accesses are the write of RAW_IN to the pixel's container. -/
theorem putrawStoresRawIn : Obligations.PutrawStoresRawIn := by
  unfold Obligations.PutrawStoresRawIn
  intro s c hwf hstart hok hadmits
  exact storesAndCompletes_of_plan hwf hstart (planPutraw_of_pixelOk hok) hadmits

/-- Settles O19: the accesses are the write of RAW_IN to the container at OFFSET. -/
theorem cwriteStoresRawIn : Obligations.CwriteStoresRawIn := by
  unfold Obligations.CwriteStoresRawIn
  intro s c hwf hstart hok hadmits
  exact storesAndCompletes_of_plan hwf hstart (planCwrite_of_offsetOk hok) hadmits

/-! ## The commands that read (R137, R138, R140) -/

/-- Settles O20: the accesses are the read of the pixel's container, which the end of the command writes to RESULT_RAW. -/
theorem getpixReadsContainer : Obligations.GetpixReadsContainer := by
  unfold Obligations.GetpixReadsContainer
  intro s c hstart hok hadmits
  exact readsAndCompletes_of_plan hstart (planGetpix_of_pixelOk hok) hadmits

/-- Settles O21: legal fields make each normalized channel of the container its intensity. -/
theorem grabpixReadsIntensities : Obligations.GrabpixReadsIntensities := by
  unfold Obligations.GrabpixReadsIntensities
  intro s c hstart hok hdirect hfields hadmits
  exact ⟨_, exec_containerRead hstart (planGrabpix_of_pixelOk hok hdirect hfields) hadmits, rfl,
    isContainerValue_readBytes s.mem c (pixelAddr s.operands c), packRgb_normalizeChannel hfields _⟩

/-- Settles O22: the accesses are the read of the container at OFFSET, which the end of the command writes to RESULT_RAW. -/
theorem creadReadsContainer : Obligations.CreadReadsContainer := by
  unfold Obligations.CreadReadsContainer
  intro s c hstart hok hadmits
  exact readsAndCompletes_of_plan hstart (planCread_of_offsetOk hok) hadmits

/-! ## A container written and read back (R140) -/

/-- In a sound state the snapshot of a running command is the registers (R82), so the next command reads the same operands. -/
theorem State.IsSound.operands_eq {s : State} (h : s.IsSound) : s.operands = s.rw := by
  cases hengine : s.engine with
  | idle => simp only [State.operands, hengine]
  | busy f =>
    obtain ⟨-, hsnapshot⟩ := (engineSound_iff_of_busy hengine).1 h.engine
    rw [operands_of_busy hengine, hsnapshot]

/-- Settles O23: CREAD runs on the operands that CWRITE had, in the memory that CWRITE left. -/
theorem creadReturnsCwrittenValue : Obligations.CreadReturnsCwrittenValue := by
  unfold Obligations.CreadReturnsCwrittenValue
  intro s c hsound hstart hok hwrite hread
  have hs := (sound_iff s).1 hsound
  have hcwrite := exec_containerWrite hstart (planCwrite_of_offsetOk hok) hwrite
  rw [hs.operands_eq] at hok hread hcwrite ⊢
  have hcread := exec_containerRead
    (s := { s with mem := writeBytes s.mem (offsetAddr s.rw) c.nbytes s.rw.rawIn, engine := .idle })
    rfl (planCread_of_offsetOk hok) hread
  exact ⟨_, _, hcwrite, hcread, readBytes_writeBytes_toNat hs.mem _ _ (container_nbytes_le c), complete_mem _ _ _⟩

/-! ## Where a pixel lies (R68, R131) -/

/-- Settles O24: the pixel lies in the visible window, and the visible window in the virtual one. -/
theorem pixelContainerInsideSurface : Obligations.PixelContainerInsideSurface := by
  unfold Obligations.PixelContainerInsideSurface
  intro o c hok
  simp only [OperandRegs.pixelOk, Bool.and_eq_true, decide_eq_true_eq] at hok
  obtain ⟨⟨⟨⟨⟨-, hw⟩, hh⟩, hx⟩, hy⟩, -⟩ := hok
  exact ⟨pixOffset_inside c hw hh hx hy, rfl⟩

end Sys2Proof.Machine

/-! # The palette commands (42_palette.md R170 to R178) -/

namespace Sys2Proof.Machine

/-! ## The fields of the palette registers (R32, R39 to R41) -/

/-- A field of a word, as a number. -/
theorem extractLsb'_eq_ofNat_div (w : Word) (k len : Nat) : w.extractLsb' k len = BitVec.ofNat len (w.toNat / 2 ^ k) := by
  rw [BitVec.extractLsb', Nat.shiftRight_eq_div_pow]

theorem paletteIndex_toNat (o : OperandRegs) : o.paletteIndex.toNat = o.palIdx.toNat % 256 := by
  rw [OperandRegs.paletteIndex, BitVec.extractLsb'_toNat, Nat.shiftRight_zero]

theorem paletteEntry_eq (o : OperandRegs) :
    o.paletteEntry =
      ⟨BitVec.ofNat 16 o.palRg.toNat, BitVec.ofNat 16 (o.palRg.toNat / 2 ^ 16), BitVec.ofNat 16 o.palB.toNat⟩ := by
  simp only [OperandRegs.paletteEntry, extractLsb'_eq_ofNat_div, pow_zero, Nat.div_one]

theorem highByte_toNat (v : Byte) : (highByte v).toNat = v.toNat * 2 ^ 8 := by
  rw [highByte, toNat_append_eq_add, BitVec.ofNat_eq_ofNat, BitVec.toNat_ofNat, Nat.zero_mod, Nat.add_zero]

/-- A byte of a word in the high byte of an intensity, as a number (R173). -/
theorem highByte_extractLsb' (w : Word) (k : Nat) :
    highByte (w.extractLsb' k 8) = BitVec.ofNat 16 (w.toNat / 2 ^ k % 2 ^ 8 * 2 ^ 8) := by
  apply BitVec.eq_of_toNat_eq
  rw [highByte_toNat, BitVec.extractLsb'_toNat, Nat.shiftRight_eq_div_pow, BitVec.toNat_ofNat]
  omega

theorem markerEntry_eq (o : OperandRegs) :
    o.markerEntry =
      ⟨BitVec.ofNat 16 (o.markerRgb.toNat / 2 ^ 16 % 2 ^ 8 * 2 ^ 8),
        BitVec.ofNat 16 (o.markerRgb.toNat / 2 ^ 8 % 2 ^ 8 * 2 ^ 8),
        BitVec.ofNat 16 (o.markerRgb.toNat % 2 ^ 8 * 2 ^ 8)⟩ := by
  simp only [OperandRegs.markerEntry, highByte_extractLsb', pow_zero, Nat.div_one]

/-- `PAL_RG` as PAL_READ writes it (R178): green above red. -/
theorem append_eq_ofNat_add (green red : Intensity) : green ++ red = BitVec.ofNat 32 (green.toNat * 2 ^ 16 + red.toNat) := by
  apply BitVec.eq_of_toNat_eq
  rw [toNat_append_eq_add, BitVec.toNat_ofNat]
  omega

/-- `PAL_B` as PAL_READ writes it (R178): blue below 16 zero bits. -/
theorem zero_append_eq_ofNat (blue : Intensity) : (0 : BitVec 16) ++ blue = BitVec.ofNat 32 blue.toNat := by
  rw [append_eq_ofNat_add, BitVec.ofNat_eq_ofNat, BitVec.toNat_ofNat, Nat.zero_mod, Nat.zero_mul, Nat.zero_add]

/-! ## The entries of the colour ramp and of the gray ramp (R171, R172) -/

theorem rampValue_eq_two_pow {n m : Nat} (h : n = m) : rampValue n = BitVec.ofNat 16 (2 ^ m) := by
  rw [rampValue, h, Nat.one_shiftLeft]

section ColourRamp
variable {r g b k : Nat}

theorem colorRamp_red (hlo : 1 ≤ k) (hhi : k < r) : colorRamp r g b k = ⟨rampValue (k + 15 - r), 0, 0⟩ := by
  rw [colorRamp, if_neg (by omega), if_pos hhi]

theorem colorRamp_redMarker (hr : 0 < r) : colorRamp r g b r = ⟨fullIntensity, 0, 0⟩ := by
  rw [colorRamp, if_neg (by omega), if_neg (lt_irrefl r), if_pos rfl]

theorem colorRamp_green (hlo : r + 1 ≤ k) (hhi : k < r + 1 + g) :
    colorRamp r g b k = ⟨0, rampValue (k - (r + 1) + 15 - g), 0⟩ := by
  rw [colorRamp, if_neg (by omega), if_neg (by omega), if_neg (by omega), if_pos hhi]

theorem colorRamp_greenMarker : colorRamp r g b (r + 1 + g) = ⟨0, fullIntensity, 0⟩ := by
  rw [colorRamp, if_neg (by omega), if_neg (by omega), if_neg (by omega), if_neg (lt_irrefl _), if_pos rfl]

theorem colorRamp_blue (hlo : r + g + 2 ≤ k) (hhi : k < r + g + 2 + b) :
    colorRamp r g b k = ⟨0, 0, rampValue (k - (r + g + 2) + 15 - b)⟩ := by
  rw [colorRamp, if_neg (by omega), if_neg (by omega), if_neg (by omega), if_neg (by omega), if_neg (by omega), if_pos hhi]

theorem colorRamp_blueMarker : colorRamp r g b (r + g + b + 2) = ⟨0, 0, fullIntensity⟩ := by
  rw [colorRamp, if_neg (by omega), if_neg (by omega), if_neg (by omega), if_neg (by omega), if_neg (by omega),
    if_neg (by omega)]

end ColourRamp

/-- Settles O27: each region of the ramp by its equation; the two ways to count the bit, from the start of a channel's ramp and
back from its end, agree for lengths up to 15. -/
theorem colourRampIsThermometer : Obligations.ColourRampIsThermometer := by
  unfold Obligations.ColourRampIsThermometer
  intro r g b hr hg hb
  refine ⟨rfl, colorRamp_redMarker, colorRamp_greenMarker, colorRamp_blueMarker, ?red, ?green, ?blue⟩
  case red =>
    intro k hlo hhi
    rw [colorRamp_red hlo hhi, rampValue_eq_two_pow (show k + 15 - r = 14 - (r - 1 - k) by omega)]
  case green =>
    intro k hlo hhi
    rw [colorRamp_green hlo hhi, rampValue_eq_two_pow (show k - (r + 1) + 15 - g = 14 - (r + g - k) by omega)]
  case blue =>
    intro k hlo hhi
    rw [colorRamp_blue hlo hhi, rampValue_eq_two_pow (show k - (r + g + 2) + 15 - b = 14 - (r + g + 1 + b - k) by omega)]

/-- Settles O28: white at the end, and before it the bit counted back from the end. -/
theorem grayRampIsThermometer : Obligations.GrayRampIsThermometer := by
  unfold Obligations.GrayRampIsThermometer
  intro n i hlo hhi hi
  by_cases hlast : i + 1 = n
  · rw [grayRamp, if_neg (by omega), if_pos hlast]
    rfl
  · rw [grayRamp, if_pos (by omega), if_neg hlast, rampValue_eq_two_pow (show i + (16 - n) = 14 - (n - 2 - i) by omega)]

/-! ## PAL_BUILD (R170, R174 to R176) -/

/-- The install of a region given entry by entry (R170). -/
theorem runAccesses_install_range (start n : Nat) (entry : Nat → PalEntry) (rest : List Access) (f : Flight) (s : State)
    (hb : start + n ≤ 256) :
    ∃ f' p', runAccesses (install start ((List.range n).map entry) ++ rest) f s = runAccesses rest f' { s with pal := p' } ∧
      ∀ i, i < 256 → findKey i p' = if start ≤ i ∧ i < start + n then some (entry (i - start)) else findKey i s.pal := by
  obtain ⟨f', p', hrun, hpal⟩ := runAccesses_install start ((List.range n).map entry) rest f s (by simpa using hb)
  refine ⟨f', p', hrun, fun i hi => ?_⟩
  rw [hpal i hi, List.length_map, List.length_range]
  by_cases hin : start ≤ i ∧ i < start + n
  · rw [if_pos hin, if_pos hin, List.getElem?_map, List.getElem?_range (by omega), Option.map_some]
  · rw [if_neg hin, if_neg hin]

/-- The marker region, index by index (R173). -/
theorem markers_at (o : OperandRegs) (i : Nat) (other : Option PalEntry) :
    (if 210 ≤ i ∧ i < 213 then (markers o)[i - 210]? else other) =
      if i = 210 then some ⟨0xFFFF, 0xFFFF, 0xFFFF⟩
      else if i = 211 then some ⟨0, 0, 0⟩
      else if i = 212 then some o.markerEntry
      else other := by
  by_cases hin : 210 ≤ i ∧ i < 213
  · obtain rfl | rfl | rfl : i = 210 ∨ i = 211 ∨ i = 212 := by omega
    all_goals rfl
  · rw [if_neg hin, if_neg (by omega), if_neg (by omega), if_neg (by omega)]

theorem redLen_le (o : OperandRegs) : o.redLen ≤ 15 := Nat.le_of_lt_succ o.redField.len.isLt
theorem greenLen_le (o : OperandRegs) : o.greenLen ≤ 15 := Nat.le_of_lt_succ o.greenField.len.isLt
theorem blueLen_le (o : OperandRegs) : o.blueLen ≤ 15 := Nat.le_of_lt_succ o.blueField.len.isLt

/-- The three installs of PAL_BUILD change the palette RAM alone, where a later region wins over an earlier one (R174 to R176). -/
theorem runAccesses_buildAccesses (o : OperandRegs) (f : Flight) (s : State) :
    ∃ f' p', runAccesses (buildAccesses o) f s = (f', { s with pal := p' }, true) ∧
      ∀ i, i < 256 → findKey i p' =
        if 210 ≤ i ∧ i < 213 then (markers o)[i - 210]?
        else if 200 ≤ i ∧ i < 200 + grayRampLen o.redLen o.greenLen o.blueLen then
          some (grayRamp (grayRampLen o.redLen o.greenLen o.blueLen) (i - 200))
        else if 100 ≤ i ∧ i < 100 + colorRampLen o.redLen o.greenLen o.blueLen then
          some (colorRamp o.redLen o.greenLen o.blueLen (i - 100))
        else findKey i s.pal := by
  have hr := redLen_le o
  have hg := greenLen_le o
  have hb := blueLen_le o
  have hcolour : 100 + colorRampLen o.redLen o.greenLen o.blueLen ≤ 256 := by
    rw [colorRampLen]
    omega
  have hgray : 200 + grayRampLen o.redLen o.greenLen o.blueLen ≤ 256 := by
    rw [grayRampLen]
    omega
  have hmarkers : 210 + (markers o).length ≤ 256 := show 210 + 3 ≤ 256 by decide
  obtain ⟨f₁, p₁, colourRun, colourPal⟩ := runAccesses_install_range 100 _ (colorRamp o.redLen o.greenLen o.blueLen)
    (install 200 ((List.range (grayRampLen o.redLen o.greenLen o.blueLen)).map
      (grayRamp (grayRampLen o.redLen o.greenLen o.blueLen))) ++ (install 210 (markers o) ++ [])) f s hcolour
  obtain ⟨f₂, p₂, grayRun, grayPal⟩ := runAccesses_install_range 200 _
    (grayRamp (grayRampLen o.redLen o.greenLen o.blueLen)) (install 210 (markers o) ++ []) f₁ { s with pal := p₁ } hgray
  obtain ⟨f₃, p₃, markerRun, markerPal⟩ := runAccesses_install 210 (markers o) [] f₂ { s with pal := p₂ } hmarkers
  refine ⟨f₃, p₃, ?run, fun i hi => ?pal⟩
  case run =>
    rw [buildAccesses, List.append_assoc, ← List.append_nil (install Config.markerBase _)]
    exact colourRun.trans (grayRun.trans markerRun)
  case pal =>
    rw [← colourPal i hi, ← grayPal i hi]
    exact markerPal i hi

/-- Settles O26: the three installs leave their regions, whose ends are written here by their last index. -/
theorem palBuildInstallsRegions : Obligations.PalBuildInstallsRegions := by
  unfold Obligations.PalBuildInstallsRegions
  refine ⟨rfl, fun s hstart => ?_⟩
  obtain ⟨f', p', hrun, hpal⟩ := runAccesses_buildAccesses s.operands (s.flightOf .palBuild) s
  refine ⟨_, exec_of_plan hstart rfl hrun, rfl, fun i hi => ?_⟩
  rw [complete_pal, hpal i hi, markers_at, markerEntry_eq, grayRampLen, colorRampLen]
  simp only [show i < 200 + (min s.operands.redLen (min s.operands.greenLen s.operands.blueLen) + 1) ↔
      i ≤ 200 + min s.operands.redLen (min s.operands.greenLen s.operands.blueLen) by omega,
    show i < 100 + (s.operands.redLen + s.operands.greenLen + s.operands.blueLen + 3) ↔
      i ≤ 102 + s.operands.redLen + s.operands.greenLen + s.operands.blueLen by omega]

/-! ## PAL_WRITE (R177) -/

theorem exec_palWrite {s : State} (hstart : s.atStart = true) :
    exec .palWrite s =
      .next { s with pal := writePalette s.pal s.operands.paletteIndex s.operands.paletteEntry, engine := .idle } :=
  exec_of_plan (i := .palWrite) hstart rfl rfl

/-- Settles O29: the one access lists the entry of PAL_RG and PAL_B under the index. -/
theorem palWriteInstallsEntry : Obligations.PalWriteInstallsEntry := by
  unfold Obligations.PalWriteInstallsEntry
  refine ⟨rfl, fun s hstart => ⟨_, exec_palWrite hstart, rfl, fun i => ?_⟩⟩
  rw [writePalette, findKey_insertKey, paletteIndex_toNat, paletteEntry_eq]

/-! ## PAL_READ (R178, R232) -/

theorem readPalette_of_listed {p : Palette} {i : BitVec 8} {e : PalEntry} (h : findKey i.toNat p = some e) (draws : Nat) :
    readPalette p draws i = (e, 0) := by
  simp only [readPalette, h]

theorem readPalette_of_unlisted {p : Palette} {i : BitVec 8} (h : findKey i.toNat p = none) (draws : Nat) :
    readPalette p draws i = (freeEntry draws, 3) := by
  simp only [readPalette, h]

/-- PAL_READ has no check and no access: given what the palette RAM answers, its end writes it. -/
theorem exec_palRead {s : State} {e : PalEntry} {n : Nat} (h : readPalette s.pal s.draws s.operands.paletteIndex = (e, n)) :
    exec .palRead s = .next { s with
      rw := { s.rw with palRg := e.green ++ e.red, palB := (0 : BitVec 16) ++ e.blue }
      draws := s.draws + n
      engine := .idle } := by
  rw [exec_of_no_accesses (r := .palEntry s.operands.paletteIndex) rfl]
  simp only [State.complete, State.applyResult, h]

/-- Settles O30: a listed entry is read as it is, without a free value. -/
theorem palReadReturnsEntry : Obligations.PalReadReturnsEntry := by
  unfold Obligations.PalReadReturnsEntry
  intro s e hlisted
  rw [← paletteIndex_toNat] at hlisted
  rw [exec_palRead (readPalette_of_listed hlisted s.draws), append_eq_ofNat_add, zero_append_eq_ofNat, Nat.add_zero]

/-- Settles O31: the triple is the three free values drawn. -/
theorem palReadOfUnwrittenEntryCompletes : Obligations.PalReadOfUnwrittenEntryCompletes := by
  unfold Obligations.PalReadOfUnwrittenEntryCompletes
  intro s hunlisted
  rw [← paletteIndex_toNat] at hunlisted
  refine ⟨freeEntry s.draws, ?_⟩
  rw [exec_palRead (readPalette_of_unlisted hunlisted s.draws), append_eq_ofNat_add, zero_append_eq_ofNat]

/-! ## An entry written and read back (R177, R178) -/

/-- The halves of `PAL_RG`, put together again. -/
theorem palRg_of_paletteEntry (o : OperandRegs) : o.paletteEntry.green ++ o.paletteEntry.red = o.palRg :=
  BitVec.extractLsb'_append_extractLsb'

theorem palB_of_paletteEntry (o : OperandRegs) :
    (0 : BitVec 16) ++ o.paletteEntry.blue = BitVec.ofNat 32 (o.palB.toNat % 2 ^ 16) := by
  rw [zero_append_eq_ofNat, OperandRegs.paletteEntry, BitVec.extractLsb'_toNat, Nat.shiftRight_zero]

/-- Settles O32: PAL_IDX, which no step between changes, names the entry that PAL_WRITE listed. -/
theorem palReadReturnsPalWritten : Obligations.PalReadReturnsPalWritten := by
  unfold Obligations.PalReadReturnsPalWritten
  intro s rg b hsound hstart
  have hwrite := exec_palWrite hstart
  rw [((sound_iff s).1 hsound).operands_eq] at hwrite
  have hread := exec_palRead
    (s := { s with
      pal := writePalette s.pal s.rw.paletteIndex s.rw.paletteEntry
      engine := .idle
      rw := { s.rw with palRg := rg, palB := b } })
    ((readPalette_writePalette s.pal s.draws _ _ s.rw.paletteEntry).trans (if_pos rfl))
  refine ⟨_, _, hwrite, hread, ?_, rfl⟩
  rw [← palB_of_paletteEntry, palRg_of_paletteEntry]

end Sys2Proof.Machine

/-! # A recorded fault stays until reset (R206 to R208) -/

namespace Sys2Proof.Machine

/-- State `t` still stands where the fault that `s` records left the block: Idle, with the fault, the result registers and the
palette RAM of `s`, and no reset to come. -/
structure State.HoldsFaultOf (t s : State) : Prop where
  err : t.status.err = true
  errcode : t.status.errcode = s.status.errcode
  errop : t.status.errop = s.status.errop
  idle : t.engine = .idle
  resultRaw : t.resultRaw = s.resultRaw
  resultRgb : t.resultRgb = s.resultRgb
  pal : t.pal = s.pal
  noReset : Event.reset ∉ t.agenda

/-- In a sound state no command is in flight once a fault is recorded (R206). -/
theorem State.IsSound.idle_of_err {s : State} (h : s.IsSound) (herr : s.status.err = true) : s.engine = .idle := by
  cases hengine : s.engine with
  | idle => rfl
  | busy f =>
    obtain ⟨hok, -⟩ := (engineSound_iff_of_busy hengine).1 h.engine
    simp [herr] at hok

theorem holdsFaultOf_self {s : State} (h : s.IsSound) (herr : s.status.err = true) (hreset : Event.reset ∉ s.agenda) :
    s.HoldsFaultOf s :=
  ⟨herr, rfl, rfl, h.idle_of_err herr, rfl, rfl, rfl, hreset⟩

namespace State.HoldsFaultOf

variable {s t : State} (h : t.HoldsFaultOf s)
include h

/-- No command starts: a write of `CMD` is ignored while ERR = 1 (R206). -/
theorem after_writeRegister (r : RegName) (v : Word) : (t.writeRegister r v).HoldsFaultOf s := by
  obtain hw | ⟨-, hw⟩ | ⟨-, hw⟩ | ⟨-, -, hok, -⟩ | ⟨-, hw⟩ := writeRegister_cases t r v
  · rwa [hw]
  · rw [hw, State.writeStatus]
    split
    · exact { h with }
    · exact h
  · rw [hw]
    exact { h with }
  · simp [h.err] at hok
  · rw [hw]
    exact { h with }

theorem after_readRegister (r : RegName) : (t.readRegister r).HoldsFaultOf s := by
  rw [readRegister_frame]
  exact { h with }

theorem after_hostFbWrite (a : Word) (w : Width) (v : Word) : (t.hostFbWrite a w v).HoldsFaultOf s := by
  obtain ⟨hframe, hidle, -, -⟩ := hostFbWrite_frame t a w v
  rw [hframe]
  exact { h with idle := hidle h.idle }

theorem after_hostFbRead (a : Word) (w : Width) : (t.hostFbRead a w).HoldsFaultOf s := by
  simp only [State.hostFbRead, h.idle]
  exact { h with idle := rfl }

theorem after_tick : t.tick.HoldsFaultOf s := by
  simpa only [State.tick, h.idle] using h

/-- Whatever the host does but a reset. -/
theorem after_hostEvent {e : Event} {u : State} (he : e ≠ .reset) (hu : hostEvent e t = .next u) : u.HoldsFaultOf s := by
  cases e with
  | regWrite off size v =>
    obtain rfl | ⟨r, rfl⟩ := hostRegWrite_next hu
    · exact h
    · exact h.after_writeRegister r v
  | regRead off size =>
    obtain rfl | ⟨r, rfl⟩ := hostRegRead_next hu
    · exact { h with }
    · exact h.after_readRegister r
  | fbWrite a w v => cases hu; exact h.after_hostFbWrite a w v
  | fbRead a w => cases hu; exact h.after_hostFbRead a w
  | reset => exact absurd rfl he
  | engine => cases hu; exact h.after_tick
  | poll => cases hu; exact h.after_readRegister .status

theorem after_step {u : State} (hu : step t = .next u) : u.HoldsFaultOf s := by
  obtain ⟨-, hstep⟩ | ⟨e, rest, -, ha, hstep⟩ := step_cases t
  · rw [hstep, engineTurn_of_idle h.idle] at hu
    cases hu
    exact h
  · obtain ⟨hhead, htail⟩ : Event.reset ≠ e ∧ Event.reset ∉ rest := by
      simpa only [ha, List.mem_cons, not_or] using h.noReset
    have hrest : State.HoldsFaultOf { t with agenda := rest } s := { h with noReset := htail }
    exact hrest.after_hostEvent hhead.symm (hstep.symm.trans hu)

end State.HoldsFaultOf

/-- A run that goes on took a first step that goes on. -/
theorem exists_step_of_run_succ (M : Host.Core) {s t : M.State} {k : Nat} (h : M.run (k + 1) s = .next t) :
    ∃ s', M.step s = .next s' ∧ M.run k s' = .next t := by
  rw [Host.Core.run] at h
  cases hstep : M.step s with
  | next s' =>
    rw [hstep] at h
    exact ⟨s', rfl, h⟩
  | fault r =>
    rw [hstep] at h
    cases h
  | refused r =>
    rw [hstep] at h
    cases h

theorem State.HoldsFaultOf.after_run {s : State} (n : Nat) {t u : State} (h : t.HoldsFaultOf s)
    (hu : Host.Core.run core n t = .next u) : u.HoldsFaultOf s := by
  induction n generalizing t with
  | zero =>
    cases hu
    exact h
  | succ n ih =>
    obtain ⟨t', hstep, hrun⟩ := exists_step_of_run_succ core (s := t) hu
    exact ih (h.after_step hstep) hrun

/-- Settles O35: an Idle block with a fault recorded refuses every command, so no step but a reset leaves that state. -/
theorem faultStaysUntilReset : Obligations.FaultStaysUntilReset := by
  unfold Obligations.FaultStaysUntilReset
  intro n s t hsound herr hreset hrun
  obtain ⟨herr', hcode, hop, hidle, hraw, hrgb, hpal, -⟩ :=
    (holdsFaultOf_self ((sound_iff s).1 hsound) herr hreset).after_run n hrun
  exact ⟨herr', hcode, hop, hidle, hraw, hrgb, hpal⟩

end Sys2Proof.Machine

/-! # The fault of a command is the first of its table, and precise (R201 to R205) -/

namespace Sys2Proof.Machine

/-! ## A list of checks and the table of its faults (R203) -/

/-- The code that a command's checks raise, if one of them fails. -/
def raisedCode {α : Type} : Except FaultCode α → Option (BitVec 4)
  | .error c => some c.number
  | .ok _ => none

/-- The checks raise the first fault of the table, and none when the table has none. -/
def Raises {α : Type} (x : Except FaultCode α) (table : List (Bool × BitVec 4)) : Prop :=
  raisedCode x = firstFault table

theorem firstFault_append (l l' : List (Bool × BitVec 4)) :
    firstFault (l ++ l') = (firstFault l).or (firstFault l') := by
  induction l with
  | nil => rfl
  | cons p l ih =>
    obtain ⟨c, code⟩ := p
    cases c
    · exact ih
    · rfl

theorem exists_mem_of_firstFault {l : List (Bool × BitVec 4)} {code : BitVec 4} (h : firstFault l = some code) :
    ∃ p ∈ l, p.2 = code := by
  induction l with
  | nil => cases h
  | cons p l ih =>
    obtain ⟨c, code'⟩ := p
    cases c
    · obtain ⟨p, hp, hcode⟩ := ih h
      exact ⟨p, List.mem_cons_of_mem _ hp, hcode⟩
    · exact ⟨_, List.mem_cons_self, Option.some.inj h⟩

theorem raises_ok {α : Type} (a : α) : Raises (.ok a) [] := rfl

theorem raises_failIf {c : Prop} [Decidable c] {b : Bool} (h : c ↔ b = true) (code : FaultCode) :
    Raises (failIf c code) [(b, code.number)] := by
  unfold Raises failIf
  cases b <;> simp [h, raisedCode, firstFault]

/-- Checks in sequence have their tables in sequence; the later table need be right only where the earlier checks pass. -/
theorem Raises.bind {α β : Type} {x : Except FaultCode α} {g : α → Except FaultCode β} {l l' : List (Bool × BitVec 4)}
    (hx : Raises x l) (hg : ∀ a, x = .ok a → Raises (g a) l') : Raises (x >>= g) (l ++ l') := by
  rw [Raises, firstFault_append, ← hx]
  cases x with
  | error c => rfl
  | ok a => exact hg a rfl

/-! ## The shared checks (R67, R105, R130 to R132) -/

theorem containerOf_eq_some_iff (bpp : BitVec 6) (c : Container) :
    containerOf bpp = some c ↔ bpp.toNat = 8 * c.nbytes := by
  unfold containerOf
  cases c <;> split <;> simp_all [Container.nbytes]

theorem containerOf_eq_none_iff (bpp : BitVec 6) : containerOf bpp = none ↔ bpp.toNat ∉ [8, 16, 24, 32] := by
  unfold containerOf
  split <;> simp_all

/-- `FMT.BPP` is the width of the container that the format check passes with. -/
theorem bpp_of_checkFormat {o : OperandRegs} {c : Container} (h : checkFormat o = .ok c) : o.bpp.toNat = 8 * c.nbytes :=
  (containerOf_eq_some_iff _ c).1 (formatOk_container ((checkFormat_ok o c).1 h))

theorem ne_c8_iff {bpp : Nat} {c : Container} (h : bpp = 8 * c.nbytes) : c ≠ .c8 ↔ decide (bpp ≠ 8) = true := by
  subst h
  cases c <;> decide

theorem checkFormat_raises (o : OperandRegs) : Raises (checkFormat o) (formatFaults o) := by
  unfold checkFormat
  cases hc : containerOf o.bpp with
  | none =>
    have hbpp := (containerOf_eq_none_iff _).1 hc
    simp only [Raises, formatFaults, firstFault, hbpp, not_false_eq_true, decide_true, if_true]
    rfl
  | some c =>
    have hbpp := (containerOf_eq_some_iff _ c).1 hc
    have hlisted : ¬ o.bpp.toNat ∉ [8, 16, 24, 32] := by
      rw [← containerOf_eq_none_iff, hc]
      nofun
    have hindexed : decide (c ≠ .c8) = decide (o.bpp.toNat ≠ 8) := by
      rw [Bool.eq_iff_iff, decide_eq_true_iff, ne_c8_iff hbpp]
    simp only [Raises, formatFaults, firstFault, hlisted, hindexed, decide_false, Bool.false_eq_true, if_false]
    split <;> rfl

/-- Only the 16-bit and 32-bit containers have an alignment requirement, on the wrapped address (R67, R70). -/
theorem aligned_eq_false_iff {o : OperandRegs} {c : Container} (hbpp : o.bpp.toNat = 8 * c.nbytes) (off : Nat) :
    c.aligned (o.surfaceAddr off) = false ↔ (alignFault o off).1 = true := by
  cases c <;> simp [Container.aligned, alignFault, OperandRegs.surfaceAddr, hbpp, Container.nbytes]

theorem pixelTarget_raises {o : OperandRegs} {c : Container} (hbpp : o.bpp.toNat = 8 * c.nbytes) :
    Raises (pixelTarget o c) (pixelFaults o) := by
  have hbytes : o.bpp.toNat / 8 = c.nbytes := by omega
  have hgeom : (o.virtW < o.visW ∨ o.virtH < o.visH) ↔ decide (o.visW > o.virtW ∨ o.visH > o.virtH) = true := by simp
  have hbounds : (o.visW ≤ o.x ∨ o.visH ≤ o.y) ↔ decide (o.x ≥ o.visW ∨ o.y ≥ o.visH) = true := by simp
  have halign := aligned_eq_false_iff hbpp (o.pixOffset c)
  rw [pixelFaults, hbytes]
  exact (raises_failIf hgeom .geom).bind fun _ _ => (raises_failIf hbounds .bounds).bind fun _ _ =>
    (raises_failIf halign .align).bind fun _ _ => raises_ok _

theorem offsetTarget_raises {o : OperandRegs} {c : Container} (hbpp : o.bpp.toNat = 8 * c.nbytes) :
    Raises (offsetTarget o c) (offsetFaults o) := by
  have hbytes : o.bpp.toNat / 8 = c.nbytes := by omega
  have hbounds : o.surfaceSize c < o.offset.toNat + c.nbytes ↔
      decide (o.offset.toNat + c.nbytes > o.virtW * c.nbytes * o.virtH) = true := decide_eq_true_iff.symm
  have halign := aligned_eq_false_iff hbpp o.offset.toNat
  rw [offsetFaults, hbytes]
  exact (raises_failIf hbounds .bounds).bind fun _ _ => (raises_failIf halign .align).bind fun _ _ => raises_ok _

theorem checkChannel_raises (f : ChannelField) :
    Raises (checkChannel f) [(f.msb, 5), (decide (f.len.toNat > 8), 6)] :=
  (raises_failIf Iff.rfl .msbFirst).bind fun _ _ => raises_failIf decide_eq_true_iff.symm .width

theorem checkExtract_raises (o : OperandRegs) : Raises (checkExtract o) (extractFaults o) :=
  (checkChannel_raises o.redField).bind fun _ _ => (checkChannel_raises o.greenField).bind fun _ _ =>
    checkChannel_raises o.blueField

/-! ## The table of every command (R202) -/

/-- A surface command: after the format check the rest of its table is read at the width that passed. -/
theorem afterFormat_raises {o : OperandRegs} {g : Container → Except FaultCode Plan} {l : List (Bool × BitVec 4)}
    (hg : ∀ c, o.bpp.toNat = 8 * c.nbytes → Raises (g c) l) : Raises (checkFormat o >>= g) (formatFaults o ++ l) :=
  (checkFormat_raises o).bind fun c hc => hg c (bpp_of_checkFormat hc)

/-- The pixel checks, and what the command does after them. -/
theorem atPixel_raises {o : OperandRegs} {c : Container} {g : Word → Except FaultCode Plan} {l : List (Bool × BitVec 4)}
    (hbpp : o.bpp.toNat = 8 * c.nbytes) (hg : ∀ a, Raises (g a) l) :
    Raises (pixelTarget o c >>= g) (pixelFaults o ++ l) :=
  (pixelTarget_raises hbpp).bind fun a _ => hg a

theorem atOffset_raises {o : OperandRegs} {c : Container} {g : Word → Except FaultCode Plan} {l : List (Bool × BitVec 4)}
    (hbpp : o.bpp.toNat = 8 * c.nbytes) (hg : ∀ a, Raises (g a) l) :
    Raises (offsetTarget o c >>= g) (offsetFaults o ++ l) :=
  (offsetTarget_raises hbpp).bind fun a _ => hg a

/-- Every command raises the first fault of its table. -/
theorem planOf_raises (i : Instr) (o : OperandRegs) : Raises (planOf i o) (faultTable i o) := by
  cases i
  case encRep | encCol | palBuild | palWrite | palRead => exact raises_ok _
  case encPal =>
    exact afterFormat_raises fun c hbpp => (raises_failIf (ne_c8_iff hbpp) .palBpp).bind fun _ _ => raises_ok _
  case extract => exact (checkExtract_raises o).bind fun _ _ => raises_ok _
  case setpixRep | setpixCol =>
    exact afterFormat_raises fun c hbpp => (raises_failIf Iff.rfl .mode).bind fun _ _ =>
      atPixel_raises hbpp fun _ => raises_ok _
  case setpixPal =>
    exact afterFormat_raises fun c hbpp => (raises_failIf (ne_c8_iff hbpp) .palBpp).bind fun _ _ =>
      atPixel_raises hbpp fun _ => raises_ok _
  case putraw | getpix => exact afterFormat_raises fun c hbpp => atPixel_raises hbpp fun _ => raises_ok _
  case grabpix =>
    exact afterFormat_raises fun c hbpp => (raises_failIf Iff.rfl .unimpl).bind fun _ _ =>
      atPixel_raises hbpp fun _ => (checkExtract_raises o).bind fun _ _ => raises_ok _
  case cwrite | cread => exact afterFormat_raises fun c hbpp => atOffset_raises hbpp fun _ => raises_ok _

/-- The tables hold the codes of R201 but E_ILLEGAL, which no command that decodes can raise (R202). -/
theorem code_of_mem_faultTable {i : Instr} {o : OperandRegs} {p : Bool × BitVec 4} (hp : p ∈ faultTable i o) :
    2 ≤ p.2.toNat ∧ p.2.toNat ≤ 11 := by
  have hall : (faultTable i o).all (fun p => decide (2 ≤ p.2.toNat ∧ p.2.toNat ≤ 11)) = true := by cases i <;> rfl
  exact of_decide_eq_true (List.all_eq_true.1 hall p hp)

/-! ## The two ways a whole command can leave `STATUS` (R204, R205) -/

/-- A whole command takes the fault entry with the first fault of its table, or has none and leaves `STATUS` as it was. -/
theorem exec_faults_or_keeps_status (i : Instr) (s : State) :
    (∃ code, firstFault (faultTable i s.operands) = some code ∧
      exec i s = .next (faultState s code (opcodeByte (s.flightOf i).cmd))) ∨
    (firstFault (faultTable i s.operands) = none ∧ ∃ t, exec i s = .next t ∧ t.status = s.status) := by
  have hraises : raisedCode (planOf i s.operands) = firstFault (faultTable i s.operands) := planOf_raises i s.operands
  rw [exec_eq_runCommand, ← hraises]
  obtain ⟨c, hfault, hrun⟩ | ⟨p, f', s', hplan, hacc, -, hrun⟩ | ⟨p, f', s', hplan, hacc, -, hrun⟩ :=
    runCommand_cases i (planOf i) s
  · rw [hrun, raiseFault_eq_faultState, hfault]
    exact .inl ⟨c.number, rfl, rfl⟩
  · obtain ⟨-, -, hframe, -, -⟩ := runAccesses_frame hacc
    rw [hplan]
    exact .inr ⟨rfl, _, rfl, by rw [hrun, complete_status, hframe]⟩
  · obtain ⟨-, -, hframe, -, -⟩ := runAccesses_frame hacc
    rw [hplan]
    exact .inr ⟨rfl, _, rfl, by rw [hrun, hframe]⟩

/-- Settles O33: the plan's checks are the table's conditions in the table's order, and the flight's word is the command's. -/
theorem faultsInPriorityOrder : Obligations.FaultsInPriorityOrder := by
  unfold Obligations.FaultsInPriorityOrder
  intro i s hcmd
  obtain ⟨code, hfirst, hexec⟩ | ⟨hnone, hkeeps⟩ := exec_faults_or_keeps_status i s
  · rw [flightOf_cmd s i hcmd, opcodeByte_encode] at hexec
    rw [hfirst]
    exact hexec
  · rw [hnone]
    exact hkeeps

/-- Settles O34: a command that does not keep `STATUS` is a fault entry, with a code of its table. -/
theorem faultsArePrecise : Obligations.FaultsArePrecise := by
  unfold Obligations.FaultsArePrecise
  intro i s t ht hchanged
  obtain ⟨code, hfirst, hexec⟩ | ⟨-, t', hexec, hstatus⟩ := exec_faults_or_keeps_status i s
  · obtain ⟨p, hp, rfl⟩ := exists_mem_of_firstFault hfirst
    obtain ⟨hlo, hhi⟩ := code_of_mem_faultTable hp
    exact ⟨p.2, _, hlo, hhi, Host.Outcome.next.inj (ht.symm.trans hexec)⟩
  · cases hexec.symm.trans ht
    exact absurd hstatus hchanged

end Sys2Proof.Machine

/-! # Reset and hazards (70_reset_and_hazards.md R230 to R237) -/

namespace Sys2Proof.Machine

/-! ## A result register read while BUSY = 1 (R237; log 6, log 16) -/

theorem readRegister_of_hazard {s : State} {r : RegName} (hbusy : s.busy = true) (hhazard : resultHazard r = true) :
    s.readRegister r = { s with hostData := Config.freeWord s.draws, draws := s.draws + 1 } := by
  rw [State.readRegister, hbusy, hhazard]
  rfl

/-- Settles O53: the value is the next draw, and the draw is all that the read leaves behind. -/
theorem busyResultReadIsUnspecified : Obligations.BusyResultReadIsUnspecified := by
  unfold Obligations.BusyResultReadIsUnspecified
  intro s r hbusy hr
  refine ⟨Config.freeWord s.draws, ?_⟩
  rw [hostReads_eq, readRegister_of_hazard hbusy ((resultHazard_iff r).2 hr)]

/-! ## The state after reset (R230 to R232) -/

/-- `STATUS` reads 0 when nothing is recorded and the engine is Idle. -/
theorem resetBlock_statusWord (s : State) : s.resetBlock.statusWord = 0 := by
  apply BitVec.eq_of_toNat_eq
  rw [statusWord_toNat, busy_resetBlock, resetBlock_status]
  rfl

theorem resetBlock_registerValue (s : State) (r : RegName) : s.resetBlock.registerValue r = 0 := by
  cases r
  case status => exact resetBlock_statusWord s
  all_goals rfl

/-- Settles O56: each register is 0 by name, and the palette lists nothing. -/
theorem resetValues : Obligations.ResetValues := by
  unfold Obligations.ResetValues
  intro s
  exact ⟨s.resetBlock, rfl, resetBlock_registerValue s, resetBlock_engine s, fun _ => rfl, rfl⟩

theorem reset_isSound : State.reset.IsSound :=
  { mem := rfl, pal := rfl, rw := reset_reservedZero, rgb := BitVec.zero_and, status := rfl, engine := rfl }

/-- Settles O58: empty stores, registers of 0 and an Idle engine meet each part of the invariant. -/
theorem resetIsSound : Obligations.ResetIsSound := (sound_iff _).2 reset_isSound

/-! ## Commands on a surface that is not configured (R130, R202, R235) -/

theorem tableWord_toNat (w : Word) : tableWord 32 w.toNat = w := by
  rw [tableWord, Nat.mod_eq_of_lt w.isLt, BitVec.ofNat_toNat, BitVec.setWidth_eq]

/-- The step on a placed command word is the command's meaning (R83; log 1, log 15). -/
theorem step_withFetchWord_encode (s : State) (i : Instr) :
    step (s.withFetchWord 32 (encode i).toNat) = exec i (s.withFetchWord 32 (encode i).toNat) := by
  apply stepRunsFetchWord
  rw [decodeTableWord_eq_some_iff, tableWord_toNat, decode_encode]

theorem commandIs_withFetchWord_encode (s : State) (i : Instr) :
    (s.withFetchWord 32 (encode i).toNat).commandIs i = true := decide_eq_true (tableWord_toNat (encode i))

theorem operands_withFetchWord (s : State) (nbits w : Nat) : (s.withFetchWord nbits w).operands = s.rw := rfl

/-- The commands that begin with the format check: those that need a container, and ENC_PAL (R202). -/
def formatCommands : List Instr :=
  [.encPal, .setpixRep, .setpixCol, .setpixPal, .putraw, .getpix, .grabpix, .cwrite, .cread]

theorem faultTable_of_mem_formatCommands {i : Instr} (hi : i ∈ formatCommands) (o : OperandRegs) :
    ∃ later, faultTable i o = formatFaults o ++ later := by
  cases i
  case encRep | encCol | extract | palBuild | palWrite | palRead => exact absurd hi (by decide)
  case setpixRep | setpixCol | setpixPal => exact ⟨_, List.append_assoc ..⟩
  case grabpix => exact ⟨[(o.indexed, 7)] ++ pixelFaults o ++ extractFaults o, by simp only [faultTable, List.append_assoc]⟩
  case encPal | putraw | getpix | cwrite | cread => exact ⟨_, rfl⟩

/-- A width that no container has is the first fault of the format check (R130). -/
theorem firstFault_formatFaults {o : OperandRegs} (hbpp : o.bpp.toNat ∉ [8, 16, 24, 32]) (later : List (Bool × BitVec 4)) :
    firstFault (formatFaults o ++ later) = some 2 := by
  rw [formatFaults, decide_eq_true hbpp]
  rfl

/-- Whatever else the registers hold, such a command on a width that no container has faults E_BPP. -/
theorem exec_of_no_container {i : Instr} {s : State} (hi : i ∈ formatCommands) (hcmd : s.commandIs i = true)
    (hbpp : s.operands.bpp.toNat ∉ [8, 16, 24, 32]) : exec i s = .next (faultState s 2 (opcode i)) := by
  obtain ⟨later, htable⟩ := faultTable_of_mem_formatCommands hi s.operands
  have hexec := faultsInPriorityOrder i s hcmd
  rw [htable, firstFault_formatFaults hbpp] at hexec
  exact hexec

/-- Settles O57: `FMT.BPP` is 0 after reset, a width that no container has. -/
theorem unconfiguredContainerCommandFaults : Obligations.UnconfiguredContainerCommandFaults := by
  unfold Obligations.UnconfiguredContainerCommandFaults
  intro i hi
  rw [step_withFetchWord_encode]
  apply exec_of_no_container hi (commandIs_withFetchWord_encode _ i)
  rw [operands_withFetchWord]
  decide

end Sys2Proof.Machine
